-- ==== Sys2Proof/Word.lean ====
section
/-! DEFINITION. The word types of the CHIP-8 core: bytes, 16-bit words, 12-bit address immediates and register
numbers (spec/00_scope.md R6, R7; spec/10_state.md R11). -/

namespace Sys2Proof

/-- A byte: a register `V[i]`, a timer, a memory cell, the immediate `nn`. -/
abbrev Byte := BitVec 8

/-- A 16-bit word: `PC`, `I`, a stack entry, an opcode word. -/
abbrev Word := BitVec 16

/-- The 12-bit immediate `nnn`. -/
abbrev Addr12 := BitVec 12

/-- The number of a general register, 0 to 15 (spec/30_encoding.md R62: no register index can be out of range). -/
abbrev Reg := Fin 16

/-- `VF`, the register that doubles as the flag (spec/10_state.md R12). -/
abbrev flagReg : Reg := 15

end Sys2Proof
end

