-- ==== Sys2Proof/Syntax.lean ====
section
/-! DEFINITION. The 35 instructions, one constructor per row of spec/opcode_table.json, in the table's order
(spec/30_encoding.md R64). Operands: `x`, `y` register numbers, `nn` a byte, `nnn` a 12-bit address, `n` a count of
sprite rows (R61, R62). -/

namespace Sys2Proof

/-- An instruction of the core. -/
inductive Instr where
  /-- `0000`, no-op. -/
  | nop
  /-- `00E0`, clear screen. -/
  | cls
  /-- `00EE`, return. -/
  | ret
  /-- `1nnn`, jump. -/
  | jp (nnn : Addr12)
  /-- `2nnn`, call. -/
  | call (nnn : Addr12)
  /-- `3xnn`, skip if equal to immediate. -/
  | seImm (x : Reg) (nn : Byte)
  /-- `4xnn`, skip if not equal to immediate. -/
  | sneImm (x : Reg) (nn : Byte)
  /-- `5xy0`, skip if registers equal. -/
  | seReg (x y : Reg)
  /-- `9xy0`, skip if registers not equal. -/
  | sneReg (x y : Reg)
  /-- `6xnn`, load immediate. -/
  | ldImm (x : Reg) (nn : Byte)
  /-- `7xnn`, add immediate. -/
  | addImm (x : Reg) (nn : Byte)
  /-- `8xy0`, register move. -/
  | ldReg (x y : Reg)
  /-- `8xy1`, OR. -/
  | orReg (x y : Reg)
  /-- `8xy2`, AND. -/
  | andReg (x y : Reg)
  /-- `8xy3`, XOR. -/
  | xorReg (x y : Reg)
  /-- `8xy4`, add with carry. -/
  | addReg (x y : Reg)
  /-- `8xy5`, subtract with borrow. -/
  | subReg (x y : Reg)
  /-- `8xy6`, shift right; `y` is in the encoding and ignored (R66). -/
  | shr (x y : Reg)
  /-- `8xy7`, reverse subtract with borrow. -/
  | subnReg (x y : Reg)
  /-- `8xyE`, shift left; `y` is in the encoding and ignored (R66). -/
  | shl (x y : Reg)
  /-- `Annn`, load index register with address. -/
  | ldI (nnn : Addr12)
  /-- `Bnnn`, jump to `V0 + nnn`. -/
  | jpV0 (nnn : Addr12)
  /-- `Cxnn`, random AND immediate. -/
  | rnd (x : Reg) (nn : Byte)
  /-- `Dxyn`, draw sprite of `n` rows. -/
  | drw (x y : Reg) (n : Nat)
  /-- `Ex9E`, skip if key pressed. -/
  | skp (x : Reg)
  /-- `ExA1`, skip if key not pressed. -/
  | sknp (x : Reg)
  /-- `Fx07`, load delay timer into `Vx`. -/
  | ldVxDT (x : Reg)
  /-- `Fx0A`, block until key pressed. -/
  | ldVxK (x : Reg)
  /-- `Fx15`, load delay timer from `Vx`. -/
  | ldDTVx (x : Reg)
  /-- `Fx18`, load sound timer from `Vx`. -/
  | ldSTVx (x : Reg)
  /-- `Fx1E`, add `Vx` to the index register. -/
  | addI (x : Reg)
  /-- `Fx29`, index register to glyph. -/
  | ldF (x : Reg)
  /-- `Fx33`, BCD decomposition. -/
  | ldB (x : Reg)
  /-- `Fx55`, store registers `V0..Vx`. -/
  | storeRegs (x : Reg)
  /-- `Fx65`, load registers `V0..Vx`. -/
  | loadRegs (x : Reg)
deriving DecidableEq, Repr

end Sys2Proof
end

