-- ==== Sys2Proof/Decode.lean ====
section
/-! DEFINITION. From opcode words and bytes to instructions, and back (spec/30_encoding.md R60 to R68;
spec/20_memory.md R42; spec/40_tick_cycle.md R82, R83). `decode` is total and rejects by name; the encoder and the
opcode table stand after it. -/

namespace Sys2Proof

/-- Why bytes give no instruction. -/
inductive DecodeError where
  /-- No row of the opcode table matches the word (R68). -/
  | unknownOpcode (op : Word)
  /-- Fewer than the two bytes of an opcode word (R60). -/
  | truncated (bytes : List Byte)
deriving DecidableEq, Repr

/-! ### Fields of the opcode word (R61) -/

/-- `nibble0 = op[15:12]`. -/
def opGroup (op : Word) : Nat := op.toNat / 4096

/-- `x = op[11:8]`. -/
def opX (op : Word) : Reg := ⟨op.toNat / 256 % 16, Nat.mod_lt _ (by decide)⟩

/-- `y = op[7:4]`. -/
def opY (op : Word) : Reg := ⟨op.toNat / 16 % 16, Nat.mod_lt _ (by decide)⟩

/-- `n = op[3:0]`. -/
def opN (op : Word) : Nat := op.toNat % 16

/-- `nn = op[7:0]`. -/
def opNN (op : Word) : Byte := BitVec.ofNat 8 (op.toNat % 256)

/-- `nnn = op[11:0]`. -/
def opNNN (op : Word) : Addr12 := BitVec.ofNat 12 (op.toNat % 4096)

/-! ### Decoding (R63, R65) -/

/-- Group `0`: three exact words. -/
def decodeGroup0 (op : Word) : Except DecodeError Instr :=
  match op.toNat with
  | 0x0000 => .ok .nop
  | 0x00E0 => .ok .cls
  | 0x00EE => .ok .ret
  | _ => .error (.unknownOpcode op)

/-- Group `5`: defined only when `n = 0`. -/
def decodeGroup5 (op : Word) : Except DecodeError Instr :=
  match opN op with
  | 0x0 => .ok (.seReg (opX op) (opY op))
  | _ => .error (.unknownOpcode op)

/-- Group `9`: defined only when `n = 0`. -/
def decodeGroup9 (op : Word) : Except DecodeError Instr :=
  match opN op with
  | 0x0 => .ok (.sneReg (opX op) (opY op))
  | _ => .error (.unknownOpcode op)

/-- Group `8`, selected by `n`. -/
def decodeGroup8 (op : Word) : Except DecodeError Instr :=
  match opN op with
  | 0x0 => .ok (.ldReg (opX op) (opY op))
  | 0x1 => .ok (.orReg (opX op) (opY op))
  | 0x2 => .ok (.andReg (opX op) (opY op))
  | 0x3 => .ok (.xorReg (opX op) (opY op))
  | 0x4 => .ok (.addReg (opX op) (opY op))
  | 0x5 => .ok (.subReg (opX op) (opY op))
  | 0x6 => .ok (.shr (opX op) (opY op))
  | 0x7 => .ok (.subnReg (opX op) (opY op))
  | 0xE => .ok (.shl (opX op) (opY op))
  | _ => .error (.unknownOpcode op)

/-- Group `E`, selected by `nn`. -/
def decodeGroupE (op : Word) : Except DecodeError Instr :=
  match op.toNat % 256 with
  | 0x9E => .ok (.skp (opX op))
  | 0xA1 => .ok (.sknp (opX op))
  | _ => .error (.unknownOpcode op)

/-- Group `F`, selected by `nn`. -/
def decodeGroupF (op : Word) : Except DecodeError Instr :=
  match op.toNat % 256 with
  | 0x07 => .ok (.ldVxDT (opX op))
  | 0x0A => .ok (.ldVxK (opX op))
  | 0x15 => .ok (.ldDTVx (opX op))
  | 0x18 => .ok (.ldSTVx (opX op))
  | 0x1E => .ok (.addI (opX op))
  | 0x29 => .ok (.ldF (opX op))
  | 0x33 => .ok (.ldB (opX op))
  | 0x55 => .ok (.storeRegs (opX op))
  | 0x65 => .ok (.loadRegs (opX op))
  | _ => .error (.unknownOpcode op)

/-- The instruction an opcode word selects, or the name of its rejection (R63, R65). -/
def decode (op : Word) : Except DecodeError Instr :=
  match opGroup op with
  | 0x0 => decodeGroup0 op
  | 0x1 => .ok (.jp (opNNN op))
  | 0x2 => .ok (.call (opNNN op))
  | 0x3 => .ok (.seImm (opX op) (opNN op))
  | 0x4 => .ok (.sneImm (opX op) (opNN op))
  | 0x5 => decodeGroup5 op
  | 0x6 => .ok (.ldImm (opX op) (opNN op))
  | 0x7 => .ok (.addImm (opX op) (opNN op))
  | 0x8 => decodeGroup8 op
  | 0x9 => decodeGroup9 op
  | 0xA => .ok (.ldI (opNNN op))
  | 0xB => .ok (.jpV0 (opNNN op))
  | 0xC => .ok (.rnd (opX op) (opNN op))
  | 0xD => .ok (.drw (opX op) (opY op) (opN op))
  | 0xE => decodeGroupE op
  | 0xF => decodeGroupF op
  | _ => .error (.unknownOpcode op)

/-! ### Bytes and words: big-endian (spec/20_memory.md R42) -/

/-- The word whose high byte comes first: `hi * 256 + lo`. -/
def joinBytes (hi lo : Byte) : Word := BitVec.ofNat 16 (hi.toNat * 256 + lo.toNat)

/-- `op[15:8]`, the byte at the lower address. -/
def highByte (op : Word) : Byte := BitVec.ofNat 8 (op.toNat / 256)

/-- `op[7:0]`, the byte at the higher address. -/
def lowByte (op : Word) : Byte := BitVec.ofNat 8 (op.toNat % 256)

/-- An opcode word as memory stores it. -/
def wordBytes (op : Word) : List Byte := [highByte op, lowByte op]

/-- Decode the first instruction of a byte sequence; the rest of the bytes comes back with it. -/
def decodeBytes : List Byte → Except DecodeError (Instr × List Byte)
  | hi :: lo :: rest =>
    match decode (joinBytes hi lo) with
    | .ok i => .ok (i, rest)
    | .error e => .error e
  | bytes => .error (.truncated bytes)

/-- The host's interface to the decoder: the instruction whose bits, numbered as spec/opcode_table.json numbers them,
are `w`, of which the table gives `nbits`. -/
def decodeTableWord (nbits w : Nat) : Option Instr :=
  match decodeBytes (wordBytes (BitVec.ofNat 16 (w % 2 ^ nbits))) with
  | .ok (i, _) => some i
  | .error _ => none

/-! ### The encoder (R61, R64) -/

/-- The `x` and `y` fields in place: `op[11:8]` and `op[7:4]`. -/
def fieldsXY (x y : Reg) : Nat := x.val * 256 + y.val * 16

/-- The opcode word as a number: the row's fixed nibbles plus its fields (R64's "pattern" column). -/
def encodeNat : Instr → Nat
  | .nop => 0x0000
  | .cls => 0x00E0
  | .ret => 0x00EE
  | .jp nnn => 0x1000 + nnn.toNat
  | .call nnn => 0x2000 + nnn.toNat
  | .seImm x nn => 0x3000 + x.val * 256 + nn.toNat
  | .sneImm x nn => 0x4000 + x.val * 256 + nn.toNat
  | .seReg x y => 0x5000 + fieldsXY x y
  | .sneReg x y => 0x9000 + fieldsXY x y
  | .ldImm x nn => 0x6000 + x.val * 256 + nn.toNat
  | .addImm x nn => 0x7000 + x.val * 256 + nn.toNat
  | .ldReg x y => 0x8000 + fieldsXY x y
  | .orReg x y => 0x8001 + fieldsXY x y
  | .andReg x y => 0x8002 + fieldsXY x y
  | .xorReg x y => 0x8003 + fieldsXY x y
  | .addReg x y => 0x8004 + fieldsXY x y
  | .subReg x y => 0x8005 + fieldsXY x y
  | .shr x y => 0x8006 + fieldsXY x y
  | .subnReg x y => 0x8007 + fieldsXY x y
  | .shl x y => 0x800E + fieldsXY x y
  | .ldI nnn => 0xA000 + nnn.toNat
  | .jpV0 nnn => 0xB000 + nnn.toNat
  | .rnd x nn => 0xC000 + x.val * 256 + nn.toNat
  | .drw x y n => 0xD000 + fieldsXY x y + n % 16
  | .skp x => 0xE09E + x.val * 256
  | .sknp x => 0xE0A1 + x.val * 256
  | .ldVxDT x => 0xF007 + x.val * 256
  | .ldVxK x => 0xF00A + x.val * 256
  | .ldDTVx x => 0xF015 + x.val * 256
  | .ldSTVx x => 0xF018 + x.val * 256
  | .addI x => 0xF01E + x.val * 256
  | .ldF x => 0xF029 + x.val * 256
  | .ldB x => 0xF033 + x.val * 256
  | .storeRegs x => 0xF055 + x.val * 256
  | .loadRegs x => 0xF065 + x.val * 256

/-- The opcode word of an instruction. -/
def encode (i : Instr) : Word := BitVec.ofNat 16 (encodeNat i)

/-! ### The opcode table as data (R64, spec/opcode_table.json) -/

/-- The row's name in spec/opcode_table.json. -/
def Instr.mnemonic : Instr → String
  | .nop => "NOP"
  | .cls => "CLS"
  | .ret => "RET"
  | .jp _ => "JP_nnn"
  | .call _ => "CALL_nnn"
  | .seImm _ _ => "SE_Vx__nn"
  | .sneImm _ _ => "SNE_Vx__nn"
  | .seReg _ _ => "SE_Vx__Vy"
  | .sneReg _ _ => "SNE_Vx__Vy"
  | .ldImm _ _ => "LD_Vx__nn"
  | .addImm _ _ => "ADD_Vx__nn"
  | .ldReg _ _ => "LD_Vx__Vy"
  | .orReg _ _ => "OR_Vx__Vy"
  | .andReg _ _ => "AND_Vx__Vy"
  | .xorReg _ _ => "XOR_Vx__Vy"
  | .addReg _ _ => "ADD_Vx__Vy"
  | .subReg _ _ => "SUB_Vx__Vy"
  | .shr _ _ => "SHR_Vx"
  | .subnReg _ _ => "SUBN_Vx__Vy"
  | .shl _ _ => "SHL_Vx"
  | .ldI _ => "LD_I__nnn"
  | .jpV0 _ => "JP_V0__nnn"
  | .rnd _ _ => "RND_Vx__nn"
  | .drw _ _ _ => "DRW_Vx__Vy__n"
  | .skp _ => "SKP_Vx"
  | .sknp _ => "SKNP_Vx"
  | .ldVxDT _ => "LD_Vx__DT"
  | .ldVxK _ => "LD_Vx__K"
  | .ldDTVx _ => "LD_DT__Vx"
  | .ldSTVx _ => "LD_ST__Vx"
  | .addI _ => "ADD_I__Vx"
  | .ldF _ => "LD_F__Vx"
  | .ldB _ => "LD_B__Vx"
  | .storeRegs _ => "LD__I___Vx"
  | .loadRegs _ => "LD_Vx___I"

/-- One row of the opcode map: a word belongs to it when `op &&& mask = pattern` (R63). -/
structure OpcodeRow where
  mnemonic : String
  mask : Word
  pattern : Word
deriving DecidableEq, Repr

/-- The word belongs to the row (R63). -/
def OpcodeRow.covers (r : OpcodeRow) (op : Word) : Bool := op &&& r.mask == r.pattern

/-- Rows 1 to 20 of R64. -/
def opcodeRowsLow : List OpcodeRow :=
  [⟨"NOP", 0xFFFF, 0x0000⟩, ⟨"CLS", 0xFFFF, 0x00E0⟩, ⟨"RET", 0xFFFF, 0x00EE⟩, ⟨"JP_nnn", 0xF000, 0x1000⟩,
   ⟨"CALL_nnn", 0xF000, 0x2000⟩, ⟨"SE_Vx__nn", 0xF000, 0x3000⟩, ⟨"SNE_Vx__nn", 0xF000, 0x4000⟩,
   ⟨"SE_Vx__Vy", 0xF00F, 0x5000⟩, ⟨"SNE_Vx__Vy", 0xF00F, 0x9000⟩, ⟨"LD_Vx__nn", 0xF000, 0x6000⟩,
   ⟨"ADD_Vx__nn", 0xF000, 0x7000⟩, ⟨"LD_Vx__Vy", 0xF00F, 0x8000⟩, ⟨"OR_Vx__Vy", 0xF00F, 0x8001⟩,
   ⟨"AND_Vx__Vy", 0xF00F, 0x8002⟩, ⟨"XOR_Vx__Vy", 0xF00F, 0x8003⟩, ⟨"ADD_Vx__Vy", 0xF00F, 0x8004⟩,
   ⟨"SUB_Vx__Vy", 0xF00F, 0x8005⟩, ⟨"SHR_Vx", 0xF00F, 0x8006⟩, ⟨"SUBN_Vx__Vy", 0xF00F, 0x8007⟩,
   ⟨"SHL_Vx", 0xF00F, 0x800E⟩]

/-- Rows 21 to 35 of R64. -/
def opcodeRowsHigh : List OpcodeRow :=
  [⟨"LD_I__nnn", 0xF000, 0xA000⟩, ⟨"JP_V0__nnn", 0xF000, 0xB000⟩, ⟨"RND_Vx__nn", 0xF000, 0xC000⟩,
   ⟨"DRW_Vx__Vy__n", 0xF000, 0xD000⟩, ⟨"SKP_Vx", 0xF0FF, 0xE09E⟩, ⟨"SKNP_Vx", 0xF0FF, 0xE0A1⟩,
   ⟨"LD_Vx__DT", 0xF0FF, 0xF007⟩, ⟨"LD_Vx__K", 0xF0FF, 0xF00A⟩, ⟨"LD_DT__Vx", 0xF0FF, 0xF015⟩,
   ⟨"LD_ST__Vx", 0xF0FF, 0xF018⟩, ⟨"ADD_I__Vx", 0xF0FF, 0xF01E⟩, ⟨"LD_F__Vx", 0xF0FF, 0xF029⟩,
   ⟨"LD_B__Vx", 0xF0FF, 0xF033⟩, ⟨"LD__I___Vx", 0xF0FF, 0xF055⟩, ⟨"LD_Vx___I", 0xF0FF, 0xF065⟩]

/-- The opcode map of R64. -/
def opcodeTable : List OpcodeRow := opcodeRowsLow ++ opcodeRowsHigh

end Sys2Proof
end

