-- ==== Sys2Proof/Config.lean ====
section
/-! DEFINITION. What is fixed for the machine (spec/00_scope.md R6), the shape of its open parameters
(spec/92_eei_decisions.md, "Open parameters"), and the values that come from outside the block, which nothing here
evaluates. The values chosen for the open parameters stand in `Sys2Proof/Machine/Params.lean`. -/

namespace Sys2Proof.Config

/-- `MEM_SIZE`: 4096 bytes (R6). -/
abbrev memSize : Nat := 4096

/-- `ADDR_MAX`: the last address that exists (R6). -/
abbrev addrMax : Nat := 4095

/-- `PROG_BASE`: where `Load` puts the program, and the reset value of `PC` (R6). -/
abbrev progBase : Nat := 512

/-- `MAX_IMAGE`: the longest image `Load` accepts (R6). -/
abbrev maxImage : Nat := 3584

/-- `FONT_BYTES`: the length of the font, 16 glyphs of 5 bytes from address 0 (R6). -/
abbrev fontBytes : Nat := 80

/-- `GLYPH_BYTES`: bytes of one glyph (R6). -/
abbrev glyphBytes : Nat := 5

/-- `STACK_DEPTH`: the call stack's entries (R6). -/
abbrev stackDepth : Nat := 16

/-- The last key and register-file index, 15 (`NKEYS` - 1, R6). -/
abbrev keyMax : Nat := 15

/-- `FB_W`, the columns of the framebuffer (R6). -/
abbrev fbWidth : Nat := 64

/-- `FB_H`, the rows of the framebuffer (R6). -/
abbrev fbHeight : Nat := 32

/-- The admitted values of `KEYWAIT_PICK` (R6, D10): which pressed key `Fx0A` loads. -/
inductive KeywaitPick where
  | lowest
  | any
deriving DecidableEq, Repr

/-- The parameters the spec leaves open. -/
structure Params where
  /-- `FONT[0..79]` (R21, D18): any 80 bytes. -/
  font : Vector Byte fontBytes
  /-- `KEYWAIT_PICK` (R6, D10). -/
  keywaitPick : KeywaitPick
deriving DecidableEq, Repr

/-- The free byte of the tick numbered by the argument, for a tick whose byte the host's schedule does not name: "any
byte, under no law" (spec/60_exceptions.md R212). No body: nothing can be proved of its values. -/
opaque randomByte : Nat → Byte

/-- The free choice of `Fx0A` among the pressed keys when `KEYWAIT_PICK` is `any` (D10: "a draw over the pressed
keys"), for the tick numbered by the argument. No body. -/
opaque keyDraw : Nat → Nat

end Sys2Proof.Config
end

