-- ==== Sys2Proof/Machine/Params.lean ====
section
/-! DEFINITION. The values of the open parameters (spec/92_eei_decisions.md, "Open parameters"). They stand here, and
not in Config.lean, so that a later repair may mend them. -/

namespace Sys2Proof.Machine

/-- The default of `FONT[0..79]`, the table of spec/10_state.md R21, one glyph a line. PRESUMED (log 3): the spec
supplies it from general knowledge, so no statement may rest on these particular bytes. -/
def defaultFont : Vector Byte Config.fontBytes :=
  #v[0xF0, 0x90, 0x90, 0x90, 0xF0,
     0x20, 0x60, 0x20, 0x20, 0x70,
     0xF0, 0x10, 0xF0, 0x80, 0xF0,
     0xF0, 0x10, 0xF0, 0x10, 0xF0,
     0x90, 0x90, 0xF0, 0x10, 0x10,
     0xF0, 0x80, 0xF0, 0x10, 0xF0,
     0xF0, 0x80, 0xF0, 0x90, 0xF0,
     0xF0, 0x10, 0x20, 0x40, 0x40,
     0xF0, 0x90, 0xF0, 0x90, 0xF0,
     0xF0, 0x90, 0xF0, 0x10, 0xF0,
     0xF0, 0x90, 0xF0, 0x90, 0x90,
     0xE0, 0x90, 0xE0, 0x90, 0xE0,
     0xF0, 0x80, 0x80, 0x80, 0xF0,
     0xE0, 0x90, 0x90, 0x90, 0xE0,
     0xF0, 0x80, 0xF0, 0x80, 0xF0,
     0xF0, 0x80, 0xF0, 0x80, 0x80]

/-- The parameters of this machine: the default font (D18) and `KEYWAIT_PICK = lowest` (D10; log 4). -/
def params : Config.Params where
  font := defaultFont
  keywaitPick := .lowest

end Sys2Proof.Machine
end

