-- ==== Sys2Proof/Machine/State.lean ====
section
/-! DEFINITION. What the machine holds (spec/10_state.md R10, R25), the operations the host may issue
(spec/60_exceptions.md R211), and why a step can stop (R190). -/

namespace Sys2Proof.Machine

/-- Memory as data: the bytes that differ from the reset contents, by rising address. `Memory.read` and
`Memory.write` (Ops.lean) are the only ways in. -/
abbrev Memory := List Host.Cell

/-- `FB[r][c]`: 32 rows of 64 pixels, `true` a set pixel (spec/10_state.md R22). -/
abbrev FrameBuffer := Vector (Vector Bool 64) 32

/-- The seven host operations (spec/60_exceptions.md R211). -/
inductive HostOp where
  /-- Construct (spec/70_reset_and_hazards.md R230). -/
  | powerOn
  /-- Reset (R231). -/
  | reset
  /-- Load program (R232, R233). -/
  | load (bytes : List Byte)
  /-- One fetch, decode and execute, with the byte the randomness source presents (spec/40_tick_cycle.md R80). -/
  | tick (rnd : Byte)
  /-- Advance timers (spec/60_exceptions.md R205). -/
  | timerTick
  /-- Set key state (R208): the key index is a 4-bit quantity. -/
  | setKey (k : Fin 16) (pressed : Bool)
  /-- Read framebuffer (R210). -/
  | readFramebuffer
deriving DecidableEq, Repr

/-- The state: the ten items of spec/10_state.md R10, then three fields of the model's own for what comes from outside
the block. -/
structure State where
  /-- `V[0..15]` (R11). -/
  v : Vector Byte 16
  /-- `I` (R17). -/
  i : Word
  /-- `PC` (R14). -/
  pc : Word
  /-- `SP`, 0 to 16 (R19). -/
  sp : Fin 17
  /-- `STACK[0..15]` (R20). -/
  stack : Vector Word 16
  /-- `DT`, the delay timer (R18). -/
  dt : Byte
  /-- `ST`, the sound timer (R18). -/
  st : Byte
  /-- `MEM[0..4095]` (R24). -/
  mem : Memory
  /-- `FB[0..31][0..63]` (R22). -/
  fb : FrameBuffer
  /-- `KEYS[0..15]` (R23). -/
  keys : Vector Bool 16
  /-- The model's: the byte at the input `rnd` of the tick in progress (spec/60_exceptions.md R212; log 5). -/
  rnd : Byte
  /-- The model's: how many ticks have begun, the index of the next free value (log 6). -/
  draws : Nat
  /-- The model's: the operations the host has issued and the block has not yet performed, oldest first
  (spec/60_exceptions.md R209; log 7). -/
  schedule : List HostOp
deriving DecidableEq, Repr

/-- The faults of one tick (spec/60_exceptions.md R190, codes 1 to 5). Each carries `pc0`, the address of the faulting
instruction, and the execute-time ones the opcode word (R216). The architectural state after a fault is the state before
the tick (R196), so no state comes with it. -/
inductive Fault where
  /-- Raised by fetch when `PC ≥ 4095` (R191). Safe: the spec names the fault. -/
  | programCounterOutOfBounds (pc0 : Word)
  /-- Raised by `2nnn` when `SP = 16` (R192). Safe: the spec names the fault. -/
  | callStackOverflow (pc0 op : Word)
  /-- Raised by `00EE` when `SP = 0` (R193). Safe: the spec names the fault. -/
  | callStackUnderflow (pc0 op : Word)
  /-- Raised by `Dxyn`, `Fx33`, `Fx55`, `Fx65` when the last address exceeds 4095 (R194). Safe: a fault where a
  machine might go on (D7). -/
  | memoryAccessOutOfBounds (pc0 op : Word)
  /-- Raised by `Ex9E` and `ExA1` when `Vx > 15` (R195). Safe: a fault where a machine might go on (D9). -/
  | keyIndexOutOfRange (pc0 op : Word)
deriving DecidableEq, Repr

/-- Why the model gives an instruction no meaning. -/
inductive Refusal where
  /-- Raised by an arm of `exec` for an instruction not modelled yet; safe. No arm of this model raises it. -/
  | notModelled (mnemonic : String)
deriving DecidableEq, Repr

/-- What a meaning answers. -/
abbrev Result := Host.Outcome State Fault Refusal

/-- The machine right after reset (spec/10_state.md R25): nothing is listed in memory, whose reset contents are
`Memory.initial`. The three fields of the model's own are 0, 0 and empty (logs 5, 6, 7). -/
def State.reset : State where
  v := Vector.replicate 16 0
  i := 0
  pc := 512
  sp := 0
  stack := Vector.replicate 16 0
  dt := 0
  st := 0
  mem := []
  fb := Vector.replicate 32 (Vector.replicate 64 false)
  keys := Vector.replicate 16 false
  rnd := 0
  draws := 0
  schedule := []

end Sys2Proof.Machine
end

