-- ==== Sys2Proof/Machine/Ops.lean ====
section
/-! DEFINITION. The named operations over memory, registers and the call stack, fetching an opcode word, and raising a
fault. Every meaning goes through these. -/

namespace Sys2Proof.Machine

/-! ### Memory (spec/20_memory.md R40; spec/10_state.md R24, R25) -/

/-- What an unlisted address reads as: the reset contents, `FONT[a]` below 80 and 0 from 80 on (R25). -/
def Memory.initial (a : Nat) : Byte :=
  if h : a < Config.fontBytes then params.font[a] else 0

/-- Read one byte. -/
def Memory.read : Memory → Nat → Byte
  | [], a => Memory.initial a
  | (k, b) :: m, a => if a < k then Memory.initial a else if a = k then b else Memory.read m a

/-- Write one byte, keeping the canonical form: a byte equal to the reset contents is not listed. -/
def Memory.write : Memory → Nat → Byte → Memory
  | [], a, x => if x = Memory.initial a then [] else [(a, x)]
  | (k, b) :: m, a, x =>
    if a < k then if x = Memory.initial a then (k, b) :: m else (a, x) :: (k, b) :: m
    else if a = k then if x = Memory.initial a then m else (a, x) :: m
    else (k, b) :: Memory.write m a x

/-- Write consecutive bytes from `a` up. -/
def Memory.writeBytes (m : Memory) (a : Nat) : List Byte → Memory
  | [] => m
  | b :: bs => (Memory.writeBytes m (a + 1) bs).write a b

/-- The canonical form from address `lo` on: addresses strictly rising and below 4096, no byte equal to what an
unlisted address reads as. -/
def Memory.wfFrom (lo : Nat) : Memory → Bool
  | [] => true
  | (k, b) :: m => decide (lo ≤ k) && decide (k < Config.memSize) && b != Memory.initial k && Memory.wfFrom (k + 1) m

/-- The canonical form of a memory. -/
def Memory.wf (m : Memory) : Bool := Memory.wfFrom 0 m

/-! ### Registers (spec/10_state.md R11, R14, R17) -/

/-- `V[x]`. -/
def State.reg (s : State) (x : Reg) : Byte := s.v[x]

/-- `V[x] <- b`. -/
def State.setReg (s : State) (x : Reg) (b : Byte) : State := { s with v := s.v.set x b }

/-- `PC <- a`. -/
def State.setPc (s : State) (a : Word) : State := { s with pc := a }

/-- `I <- a`. -/
def State.setI (s : State) (a : Word) : State := { s with i := a }

/-- `DT <- b`. -/
def State.setDt (s : State) (b : Byte) : State := { s with dt := b }

/-- `ST <- b`. -/
def State.setSt (s : State) (b : Byte) : State := { s with st := b }

/-- `MEM[a]`. -/
def State.byte (s : State) (a : Nat) : Byte := s.mem.read a

/-- `MEM[a..] <- bytes`, one byte after another at ascending addresses (spec/20_memory.md R41). -/
def State.store (s : State) (a : Nat) (bytes : List Byte) : State := { s with mem := s.mem.writeBytes a bytes }

/-- `FB <- fb`. -/
def State.setFb (s : State) (fb : FrameBuffer) : State := { s with fb := fb }

/-- `FB[r][c]`. -/
def State.pixel (s : State) (r : Fin 32) (c : Fin 64) : Bool := s.fb[r][c]

/-! ### Control transfer (spec/41_control_flow.md) -/

/-- A skip: two more than the `PC` that fetch left, when the condition holds (R105). -/
def skipIf (cond : Bool) (s : State) : State := if cond then s.setPc (s.pc + 2) else s

/-- Push the `PC` that fetch left, the address of the next instruction; none when 16 entries are held (R102). -/
def push (s : State) : Option State :=
  if h : s.sp.val < 16 then some { s with stack := s.stack.set s.sp.val s.pc h, sp := ⟨s.sp.val + 1, by omega⟩ }
  else none

/-- Pop the newest entry into `PC`; none when the stack is empty (R100). The popped entry keeps its bits (R20). -/
def pop (s : State) : Option State :=
  if h : 0 < s.sp.val then
    some { s with pc := s.stack[s.sp.val - 1]'(by omega), sp := ⟨s.sp.val - 1, by omega⟩ }
  else none

/-! ### Faults (spec/60_exceptions.md R196, R216) -/

/-- Raise an execute-time fault from the meaning of `i`: nothing is written, control goes nowhere, and the fault records
the instruction's address, two below the `PC` that fetch left, and its opcode word (log 13). -/
def raise (kind : Word → Word → Fault) (i : Instr) (s : State) : Result := .fault (kind (s.pc - 2) (encode i))

/-! ### Fetch (spec/20_memory.md R42, R43; spec/40_tick_cycle.md R81) -/

/-- The opcode word at an address, big-endian. -/
def State.wordAt (s : State) (a : Nat) : Word := joinBytes (s.byte a) (s.byte (a + 1))

/-- Fetch: the opcode word at `PC` and the state with `PC` advanced by 2, or the fault when `PC ≥ 4095`. -/
def fetch (s : State) : Except Fault (Word × State) :=
  if s.pc.toNat < Config.addrMax then .ok (s.wordAt s.pc.toNat, s.setPc (s.pc + 2))
  else .error (.programCounterOutOfBounds s.pc)

end Sys2Proof.Machine
end

