-- ==== Sys2Proof/Machine/Operands.lean ====
section
/-! DEFINITION. The values instructions compute from their operands: wrapping arithmetic (spec/42_alu.md R132),
effective addresses and their bounds (spec/20_memory.md R44; spec/43_index_memory.md R144), decimal digits, glyph
addresses, keys. Exact natural-number results are narrowed at the end. -/

namespace Sys2Proof.Machine

/-! ### Arithmetic -/

/-- `(a + b) mod 256` (R126). -/
def addWrap (a b : Byte) : Byte := BitVec.ofNat 8 (a.toNat + b.toNat)

/-- `(a - b) mod 256` (R127). -/
def subWrap (a b : Byte) : Byte := BitVec.ofNat 8 (a.toNat + 256 - b.toNat)

/-- `a >> 1`, bit 7 becoming 0 (R128). -/
def shiftRight1 (a : Byte) : Byte := BitVec.ofNat 8 (a.toNat / 2)

/-- `(a << 1) mod 256`, bit 0 becoming 0 (R130). -/
def shiftLeft1 (a : Byte) : Byte := BitVec.ofNat 8 (a.toNat * 2)

/-! ### Addresses -/

/-- `zext_16(nnn)` (spec/30_encoding.md R62). -/
def addrOf (nnn : Addr12) : Word := BitVec.ofNat 16 nnn.toNat

/-- The target of `Bnnn`: `V0 + nnn`, not reduced modulo 4096 (R104, D13; log 18). -/
def jumpTarget (v0 : Byte) (nnn : Addr12) : Word := BitVec.ofNat 16 (v0.toNat + nnn.toNat)

/-- `(I + Vx) mod 65536` (R141, D12; log 17). -/
def indexSum (i : Word) (b : Byte) : Word := BitVec.ofNat 16 (i.toNat + b.toNat)

/-- The address of the glyph of a digit: `FONT_BASE + Vx × 5`, on the whole byte (R142, D11; log 16). -/
def glyphAddress (b : Byte) : Word := BitVec.ofNat 16 (b.toNat * Config.glyphBytes)

/-- The one bounds check of a data access whose last byte is at offset `m`: `I + m ≤ 4095`, without wrap (R44). -/
def accessFits (i : Word) (m : Nat) : Bool := decide (i.toNat + m ≤ Config.addrMax)

/-! ### Data to store and to load -/

/-- The hundreds, tens and units digits (R143). -/
def bcdDigits (a : Byte) : List Byte :=
  [BitVec.ofNat 8 (a.toNat / 100), BitVec.ofNat 8 (a.toNat / 10 % 10), BitVec.ofNat 8 (a.toNat % 10)]

/-- `V[0..x]` in order, the bytes `Fx55` stores (R145). -/
def State.regsUpTo (s : State) (x : Reg) : List Byte := s.v.toList.take (x.val + 1)

/-- The register file after `Fx65`: `V[k] <- MEM[I + k]` for `k ≤ x`, the others kept (R146). -/
def State.loadRegs (s : State) (x : Reg) : State :=
  { s with v := Vector.ofFn fun k : Fin 16 => if k.val ≤ x.val then s.byte (s.i.toNat + k.val) else s.v[k] }

/-! ### Keys (spec/45_keypad_timers.md R172, R176) -/

/-- The key a register names, or none when its value exceeds 15 (R176, D9; log 14). -/
def keyIndex (b : Byte) : Option (Fin 16) := if h : b.toNat < 16 then some ⟨b.toNat, h⟩ else none

/-- The pressed keys, by rising index. -/
def pressedKeys (keys : Vector Bool 16) : List (Fin 16) := (List.finRange 16).filter fun k => keys[k]

/-- The key `Fx0A` loads, or none while no key is pressed: the smallest pressed index under `lowest`, the free `draw`
among the pressed indices under `any` (R172, D10; log 4). -/
def keyWaitPick (pick : Config.KeywaitPick) (draw : Nat) (keys : Vector Bool 16) : Option (Fin 16) :=
  match pick with
  | .lowest => (pressedKeys keys).head?
  | .any => (pressedKeys keys)[draw % (pressedKeys keys).length]?

end Sys2Proof.Machine
end

