-- ==== Sys2Proof/Machine/Flags.lean ====
section
/-! DEFINITION. The flags that six instructions write to `VF`, and the order of the write (spec/10_state.md R12, R13). -/

namespace Sys2Proof.Machine

/-- A flag as `VF` holds it: 0 or 1 (R12). -/
def flagByte (b : Bool) : Byte := if b then 1 else 0

/-- The carry of `8xy4`: the unsigned sum exceeded 255 (R126). -/
def carry (a b : Byte) : Byte := flagByte (decide (255 < a.toNat + b.toNat))

/-- The not-borrow of `8xy5` and `8xy7`: the minuend is at least the subtrahend (R127, R129). -/
def notBorrow (minuend subtrahend : Byte) : Byte := flagByte (decide (subtrahend.toNat ≤ minuend.toNat))

/-- The bit `8xy6` shifts out: `a[0]` (R128). -/
def lowBit (a : Byte) : Byte := flagByte (decide (a.toNat % 2 = 1))

/-- The bit `8xyE` shifts out: `a[7]` (R130). -/
def highBit (a : Byte) : Byte := flagByte (decide (128 ≤ a.toNat))

/-- The result to `Vx`, then the flag to `VF`, last (R13): with `x = 0xF` the flag overwrites the result. -/
def writeThenFlag (x : Reg) (result flag : Byte) (s : State) : State := (s.setReg x result).setReg flagReg flag

end Sys2Proof.Machine
end

