-- ==== Sys2Proof/Machine/Alu.lean ====
section
/-! DEFINITION. Register load, arithmetic, logic, shift and random instructions (spec/42_alu.md). None faults and none
moves `PC` beyond the fetch advance. -/

namespace Sys2Proof.Machine

/-- `6xnn` (R120). -/
def execLdImm (x : Reg) (nn : Byte) (s : State) : Result := .next (s.setReg x nn)

/-- `7xnn` (R121): no flag. -/
def execAddImm (x : Reg) (nn : Byte) (s : State) : Result := .next (s.setReg x (addWrap (s.reg x) nn))

/-- `8xy0` (R122). -/
def execLdReg (x y : Reg) (s : State) : Result := .next (s.setReg x (s.reg y))

/-- `8xy1` (R123): no flag (D15; log 20). -/
def execOrReg (x y : Reg) (s : State) : Result := .next (s.setReg x (s.reg x ||| s.reg y))

/-- `8xy2` (R124): no flag (D15; log 20). -/
def execAndReg (x y : Reg) (s : State) : Result := .next (s.setReg x (s.reg x &&& s.reg y))

/-- `8xy3` (R125): no flag (D15; log 20). -/
def execXorReg (x y : Reg) (s : State) : Result := .next (s.setReg x (s.reg x ^^^ s.reg y))

/-- `8xy4` (R126). -/
def execAddReg (x y : Reg) (s : State) : Result :=
  .next (writeThenFlag x (addWrap (s.reg x) (s.reg y)) (carry (s.reg x) (s.reg y)) s)

/-- `8xy5` (R127): the minuend is `Vx`. -/
def execSubReg (x y : Reg) (s : State) : Result :=
  .next (writeThenFlag x (subWrap (s.reg x) (s.reg y)) (notBorrow (s.reg x) (s.reg y)) s)

/-- `8xy6` (R128): `y` stands in the word and is neither read nor written (R66). -/
def execShr (x _y : Reg) (s : State) : Result :=
  .next (writeThenFlag x (shiftRight1 (s.reg x)) (lowBit (s.reg x)) s)

/-- `8xy7` (R129): the minuend is `Vy`. -/
def execSubnReg (x y : Reg) (s : State) : Result :=
  .next (writeThenFlag x (subWrap (s.reg y) (s.reg x)) (notBorrow (s.reg y) (s.reg x)) s)

/-- `8xyE` (R130): `y` stands in the word and is neither read nor written (R66). -/
def execShl (x _y : Reg) (s : State) : Result :=
  .next (writeThenFlag x (shiftLeft1 (s.reg x)) (highBit (s.reg x)) s)

/-- `Cxnn` (R131): the byte the host presents with this tick, ANDed with `nn` (log 5). -/
def execRnd (x : Reg) (nn : Byte) (s : State) : Result := .next (s.setReg x (s.rnd &&& nn))

end Sys2Proof.Machine
end

