-- ==== Sys2Proof/Machine/ControlFlow.lean ====
section
/-! DEFINITION. `0000` (spec/40_tick_cycle.md R85) and the control transfer instructions (spec/41_control_flow.md). The
state a meaning is given is the one fetch left: `PC` already holds `npc` (R81). -/

namespace Sys2Proof.Machine

/-- `0000` (R85): nothing beyond fetch. -/
def execNop (s : State) : Result := .next s

/-- `00EE` (R100). -/
def execRet (s : State) : Result :=
  match pop s with
  | some t => .next t
  | none => raise .callStackUnderflow .ret s

/-- `1nnn` (R101). -/
def execJp (nnn : Addr12) (s : State) : Result := .next (s.setPc (addrOf nnn))

/-- `2nnn` (R102). -/
def execCall (nnn : Addr12) (s : State) : Result :=
  match push s with
  | some t => .next (t.setPc (addrOf nnn))
  | none => raise .callStackOverflow (.call nnn) s

/-- `Bnnn` (R104): always `V0`. -/
def execJpV0 (nnn : Addr12) (s : State) : Result := .next (s.setPc (jumpTarget (s.reg 0) nnn))

/-- `3xnn` (R105). -/
def execSeImm (x : Reg) (nn : Byte) (s : State) : Result := .next (skipIf (s.reg x == nn) s)

/-- `4xnn` (R106). -/
def execSneImm (x : Reg) (nn : Byte) (s : State) : Result := .next (skipIf (s.reg x != nn) s)

/-- `5xy0` (R107). -/
def execSeReg (x y : Reg) (s : State) : Result := .next (skipIf (s.reg x == s.reg y) s)

/-- `9xy0` (R108). -/
def execSneReg (x y : Reg) (s : State) : Result := .next (skipIf (s.reg x != s.reg y) s)

end Sys2Proof.Machine
end

