-- ==== Sys2Proof/Machine/Display.lean ====
section
/-! DEFINITION. Clear screen and the pixel-blit engine (spec/44_display.md). -/

namespace Sys2Proof.Machine

/-- The framebuffer while a sprite is drawn, and whether a set pixel has been turned off so far (R161). -/
abbrev Blit := FrameBuffer × Bool

/-- A blank framebuffer. -/
def blankFb : FrameBuffer := Vector.replicate 32 (Vector.replicate 64 false)

/-- The pixel a sprite row and column land on: row `(vy + row) mod 32` (R162). -/
def pixelRow (vy : Byte) (row : Nat) : Fin 32 := Fin.ofNat 32 (vy.toNat + row)

/-- Column `(vx + col) mod 64` (R162). -/
def pixelCol (vx : Byte) (col : Nat) : Fin 64 := Fin.ofNat 64 (vx.toNat + col)

/-- Bit `b[7 - col]` of a sprite byte: most significant bit first (R161). -/
def spriteBit (b : Byte) (col : Nat) : Bool := b.getLsbD (7 - col)

/-- Invert one pixel; turning a set pixel off is a collision (R163). -/
def invertPixel (r : Fin 32) (c : Fin 64) (d : Blit) : Blit :=
  (d.1.set r (d.1[r].set c (!d.1[r][c])), d.2 || d.1[r][c])

/-- XOR one sprite row, columns 0 to 7, onto the framebuffer (R161). -/
def blitRow (vx vy : Byte) (row : Nat) (b : Byte) (d : Blit) : Blit :=
  (List.range 8).foldl (fun d col => if spriteBit b col then invertPixel (pixelRow vy row) (pixelCol vx col) d else d) d

/-- XOR the sprite rows 0 to `n - 1`, read from `MEM[i + row]`, onto the framebuffer (R161). -/
def blit (mem : Memory) (i : Nat) (vx vy : Byte) (n : Nat) (d : Blit) : Blit :=
  (List.range n).foldl (fun d row => blitRow vx vy row (mem.read (i + row)) d) d

/-- `00E0` (R160): `VF` is not changed. -/
def execCls (s : State) : Result := .next (s.setFb blankFb)

/-- The memory read by `Dxyn` lies inside memory; with `n = 0` nothing is read (R164). -/
def spriteFits (i : Word) (n : Nat) : Bool := n == 0 || accessFits i (n - 1)

/-- `Dxyn` (R161): the coordinates are sampled before any write, `VF` is written last. -/
def execDrw (x y : Reg) (n : Nat) (s : State) : Result :=
  if spriteFits s.i n then
    let d := blit s.mem s.i.toNat (s.reg x) (s.reg y) n (s.fb, false)
    .next ((s.setFb d.1).setReg flagReg (flagByte d.2))
  else raise .memoryAccessOutOfBounds (.drw x y n) s

end Sys2Proof.Machine
end

