-- ==== Sys2Proof/Machine/IndexMemory.lean ====
section
/-! DEFINITION. Index-register and memory instructions (spec/43_index_memory.md). `I` is never changed by an access
(R144, D14; log 19). -/

namespace Sys2Proof.Machine

/-- `Annn` (R140). -/
def execLdI (nnn : Addr12) (s : State) : Result := .next (s.setI (addrOf nnn))

/-- `Fx1E` (R141): no flag. -/
def execAddI (x : Reg) (s : State) : Result := .next (s.setI (indexSum s.i (s.reg x)))

/-- `Fx29` (R142). -/
def execLdF (x : Reg) (s : State) : Result := .next (s.setI (glyphAddress (s.reg x)))

/-- `Fx33` (R143). -/
def execLdB (x : Reg) (s : State) : Result :=
  if accessFits s.i 2 then .next (s.store s.i.toNat (bcdDigits (s.reg x)))
  else raise .memoryAccessOutOfBounds (.ldB x) s

/-- `Fx55` (R145). -/
def execStoreRegs (x : Reg) (s : State) : Result :=
  if accessFits s.i x.val then .next (s.store s.i.toNat (s.regsUpTo x))
  else raise .memoryAccessOutOfBounds (.storeRegs x) s

/-- `Fx65` (R146). -/
def execLoadRegs (x : Reg) (s : State) : Result :=
  if accessFits s.i x.val then .next (s.loadRegs x)
  else raise .memoryAccessOutOfBounds (.loadRegs x) s

end Sys2Proof.Machine
end

