-- ==== Sys2Proof/Machine/KeypadTimers.lean ====
section
/-! DEFINITION. Keypad and timer instructions (spec/45_keypad_timers.md). -/

namespace Sys2Proof.Machine

/-- `Ex9E` (R170). -/
def execSkp (x : Reg) (s : State) : Result :=
  match keyIndex (s.reg x) with
  | some k => .next (skipIf s.keys[k] s)
  | none => raise .keyIndexOutOfRange (.skp x) s

/-- `ExA1` (R171). -/
def execSknp (x : Reg) (s : State) : Result :=
  match keyIndex (s.reg x) with
  | some k => .next (skipIf (!s.keys[k]) s)
  | none => raise .keyIndexOutOfRange (.sknp x) s

/-- `Fx07` (R173). -/
def execLdVxDT (x : Reg) (s : State) : Result := .next (s.setReg x s.dt)

/-- `Fx0A` (R172): with no key pressed, back to the instruction's own address; else the picked key's index. -/
def execLdVxK (x : Reg) (s : State) : Result :=
  match keyWaitPick params.keywaitPick (Config.keyDraw s.draws) s.keys with
  | some k => .next (s.setReg x (BitVec.ofNat 8 k.val))
  | none => .next (s.setPc (s.pc - 2))

/-- `Fx15` (R174). -/
def execLdDTVx (x : Reg) (s : State) : Result := .next (s.setDt (s.reg x))

/-- `Fx18` (R175). -/
def execLdSTVx (x : Reg) (s : State) : Result := .next (s.setSt (s.reg x))

end Sys2Proof.Machine
end

