-- ==== Sys2Proof/Machine/HostOps.lean ====
section
/-! DEFINITION. The seven operations of the host (spec/60_exceptions.md R211), each with its effect and its outputs:
the tick cycle (spec/40_tick_cycle.md R80 to R87), reset and load (spec/70_reset_and_hazards.md), the timer channels and
the keypad (spec/60_exceptions.md R205 to R210). -/

namespace Sys2Proof.Machine

/-- What an operation returns to the host besides the new state (R211). -/
inductive Output where
  /-- No output: `PowerOn`, `Reset`, `SetKey`. -/
  | none
  /-- `Ok`: a tick that executed an instruction of the table, or an accepted load. -/
  | ok
  /-- A tick that met an unknown word and completed as a no-op (R86, R198). -/
  | okUnknownOpcode (op : Word)
  /-- A rejected load (R233). -/
  | romTooLarge
  /-- `sound_stop` of a timer tick (R207). -/
  | soundStop (stop : Bool)
  /-- The 2048 bits of `ReadFramebuffer`, row-major (R210). -/
  | framebuffer (bits : List Bool)
deriving DecidableEq, Repr

/-- What an operation answers: the new state and its output, or the fault that ended the tick. -/
abbrev OpResult := Host.Outcome (State × Output) Fault Refusal

/-- The code of a fault's kind (R190, D8). -/
def Fault.code : Fault → Nat
  | .programCounterOutOfBounds _ => 1
  | .callStackOverflow _ _ => 2
  | .callStackUnderflow _ _ => 3
  | .memoryAccessOutOfBounds _ _ => 4
  | .keyIndexOutOfRange _ _ => 5

/-- The code of an operation's result (R190, D8): 0 for `Ok` and for operations that report none. -/
def resultCode : OpResult → Nat
  | .next (_, .romTooLarge) => 6
  | .next (_, .okUnknownOpcode _) => 7
  | .next _ => 0
  | .fault f => f.code
  | .refused _ => 0

/-- The address of the faulting instruction that a fault records (R216). -/
def Fault.pc0 : Fault → Word
  | .programCounterOutOfBounds pc0 => pc0
  | .callStackOverflow pc0 _ => pc0
  | .callStackUnderflow pc0 _ => pc0
  | .memoryAccessOutOfBounds pc0 _ => pc0
  | .keyIndexOutOfRange pc0 _ => pc0

/-- The opcode word that an execute-time fault records; a fetch fault has none (R216). -/
def Fault.op : Fault → Option Word
  | .programCounterOutOfBounds _ => none
  | .callStackOverflow _ op => some op
  | .callStackUnderflow _ op => some op
  | .memoryAccessOutOfBounds _ op => some op
  | .keyIndexOutOfRange _ op => some op

/-! ### The tick (spec/40_tick_cycle.md) -/

/-- The input `rnd` of a tick stands in the state while the tick runs, and the tick is counted (logs 5, 6). -/
def State.present (rnd : Byte) (s : State) : State := { s with rnd := rnd, draws := s.draws + 1 }

/-- Execute what decode gave for the word `op` that fetch read: the instruction's meaning, or, for an unknown word,
nothing beyond fetch and the diagnostic (R83, R86). -/
def execute (op : Word) (s : State) : OpResult :=
  match decode op with
  | .error _ => .next (s, .okUnknownOpcode op)
  | .ok i =>
    match exec i s with
    | .next t => .next (t, .ok)
    | .fault f => .fault f
    | .refused r => .refused r

/-- `Tick(rnd)` (R80): fetch, decode, dispatch, execute. A fault writes nothing (R87). -/
def tick (rnd : Byte) (s : State) : OpResult :=
  match fetch (s.present rnd) with
  | .error f => .fault f
  | .ok (op, t) => execute op t

/-! ### The other operations -/

/-- Every item of R25 at its reset value, whatever it held; the three fields of the model's own stay (R230, R231). -/
def State.toReset (s : State) : State :=
  { State.reset with rnd := s.rnd, draws := s.draws, schedule := s.schedule }

/-- `PowerOn` (R230). -/
def powerOn (s : State) : OpResult := .next (s.toReset, .none)

/-- `Reset` (R231): identical to `PowerOn`. -/
def resetOp (s : State) : OpResult := .next (s.toReset, .none)

/-- `Load(bytes)` (R232, R233): the image goes to 512 and up, or, when it is longer than 3584 bytes, nothing changes. -/
def load (bytes : List Byte) (s : State) : OpResult :=
  if bytes.length ≤ Config.maxImage then .next (s.store Config.progBase bytes, .ok) else .next (s, .romTooLarge)

/-- One decrement, saturating at 0 (R205). -/
def countDown (b : Byte) : Byte := if b = 0 then 0 else b - 1

/-- `TimerTick` (R205), with `sound_stop` when `ST` goes from 1 to 0 (R207). -/
def timerTick (s : State) : OpResult :=
  .next ({ s with dt := countDown s.dt, st := countDown s.st }, .soundStop (s.st == 1))

/-- `SetKey(k, pressed)` (R208). -/
def setKey (k : Fin 16) (pressed : Bool) (s : State) : OpResult :=
  .next ({ s with keys := s.keys.set k pressed }, .none)

/-- The framebuffer's bits, row-major: pixel `(r, c)` at index `r × 64 + c` (spec/10_state.md R22). -/
def State.fbBits (s : State) : List Bool := (s.fb.toList.map Vector.toList).flatten

/-- `ReadFramebuffer` (R210). -/
def readFramebuffer (s : State) : OpResult := .next (s, .framebuffer s.fbBits)

/-- The level output `sound_active` (R206). -/
def State.soundActive (s : State) : Bool := decide (0 < s.st.toNat)

/-- One host operation (R211). -/
def perform (op : HostOp) (s : State) : OpResult :=
  match op with
  | .powerOn => powerOn s
  | .reset => resetOp s
  | .load bytes => load bytes s
  | .tick rnd => tick rnd s
  | .timerTick => timerTick s
  | .setKey k pressed => setKey k pressed s
  | .readFramebuffer => readFramebuffer s

/-- The operation the block performs next, and the state with it taken off the schedule: the oldest one the host has
issued, or, when the host's schedule names none, a tick with a free byte (R209, R212; log 7). -/
def nextOp (s : State) : HostOp × State :=
  match s.schedule with
  | [] => (.tick (Config.randomByte s.draws), s)
  | op :: rest => (op, { s with schedule := rest })

/-- The state of an operation's result, without its output. -/
def dropOutput : OpResult → Result
  | .next (s, _) => .next s
  | .fault f => .fault f
  | .refused r => .refused r

/-- The state from which the next step fetches the word stored by `withFetchWord`: the host's schedule is empty, and
`PC`, where no fetch is possible at it, is moved to the program base (log 8). -/
def State.readyToFetch (s : State) : State :=
  { s with schedule := [], pc := if s.pc.toNat < Config.addrMax then s.pc else BitVec.ofNat 16 Config.progBase }

end Sys2Proof.Machine
end

