-- ==== Sys2Proof/Machine/Step.lean ====
section
/-! DEFINITION. One step of the block: the next host operation, performed whole (spec/00_scope.md R5;
spec/60_exceptions.md R209). -/

namespace Sys2Proof.Machine

/-- One step: the next operation, atomic; with nothing scheduled it is a tick. -/
def step (s : State) : Host.Outcome State Fault Refusal :=
  dropOutput (perform (nextOp s).1 (nextOp s).2)

/-- The state with an instruction's word stored where the next step fetches, for the host's interface: bit 0 of `w` is
the word's least significant bit, `nbits` of them are given and the rest are 0. -/
def State.withFetchWord (s : State) (nbits w : Nat) : State :=
  s.readyToFetch.store s.readyToFetch.pc.toNat (wordBytes (BitVec.ofNat 16 (w % 2 ^ nbits)))

end Sys2Proof.Machine
end

