-- ==== Sys2Proof/Safety.lean ====
section
/-! DEFINITION. The terms claims are stated in: the invariant of the machine, what a step leaves unchanged, when an
instruction faults, and what a safe run is. -/

namespace Sys2Proof.Machine

/-! ### The invariant -/

/-- Every live entry of the call stack is an `npc`, 2 to 4096 (spec/10_state.md R16, R20). -/
abbrev State.LiveEntriesInRange (s : State) : Prop :=
  ∀ j : Fin 16, j.val < s.sp.val → 2 ≤ (s.stack[j]).toNat ∧ (s.stack[j]).toNat ≤ 4096

/-- The invariant: memory is in canonical form, `PC` is at most 0x10FE = 4350, and the live stack entries are return
addresses a fetch can have left (spec/10_state.md R16). -/
abbrev State.Inv (s : State) : Prop :=
  s.mem.wf = true ∧ s.pc.toNat ≤ 0x10FE ∧ s.LiveEntriesInRange

/-! ### Frames -/

/-- The parts of the state besides `PC`: the items of spec/10_state.md R10, `SP` and `STACK` as one, and the three fields
of the model's own as one. -/
inductive Part where
  | regs
  | index
  | callStack
  | delayTimer
  | soundTimer
  | memory
  | display
  | keypad
  | inputs
deriving DecidableEq, Repr

/-- A part holds in `t` what it held in `s`. -/
def Part.same (s t : State) : Part → Prop
  | .regs => ∀ r : Reg, t.reg r = s.reg r
  | .index => t.i = s.i
  | .callStack => t.sp = s.sp ∧ t.stack = s.stack
  | .delayTimer => t.dt = s.dt
  | .soundTimer => t.st = s.st
  | .memory => ∀ a : Nat, t.byte a = s.byte a
  | .display => ∀ (r : Fin 32) (c : Fin 64), t.pixel r c = s.pixel r c
  | .keypad => t.keys = s.keys
  | .inputs => t.rnd = s.rnd ∧ t.draws = s.draws ∧ t.schedule = s.schedule

/-- Every part but those listed is unchanged; nothing is said of `PC`. -/
def KeepsAllBut (changed : List Part) (s t : State) : Prop := ∀ p : Part, p ∉ changed → p.same s t

/-- Every register but those listed is unchanged. -/
def KeepsRegsBut (written : List Reg) (s t : State) : Prop := ∀ r : Reg, r ∉ written → t.reg r = s.reg r

/-- Nothing the spec gives the machine has changed, `PC` included; the fields of the model's own may differ. -/
def SameMachine (s t : State) : Prop := t.pc = s.pc ∧ KeepsAllBut [.inputs] s t

/-! ### When an instruction faults -/

/-- The one condition under which each instruction faults, in the state fetch left (spec/60_exceptions.md R200). -/
def FaultCondition (i : Instr) (s : State) : Prop :=
  match i with
  | .ret => s.sp.val = 0
  | .call _ => s.sp.val = 16
  | .drw _ _ n => 0 < n ∧ 4095 < s.i.toNat + n - 1
  | .ldB _ => 4095 < s.i.toNat + 2
  | .storeRegs x | .loadRegs x => 4095 < s.i.toNat + x.val
  | .skp x | .sknp x => 15 < (s.reg x).toNat
  | _ => False

/-- The word selects the instruction: the opcode word with this number decodes to it (spec/30_encoding.md R63). -/
abbrev Selects (w : Nat) (i : Instr) : Prop := decode (BitVec.ofNat 16 w) = .ok i

/-! ### Sprites (spec/44_display.md R161, R162) -/

/-- Some sprite bit that is 1 lands on pixel `(r, c)` when `Dxyn` runs in `s`. -/
def SpriteCovers (s : State) (x y : Reg) (n : Nat) (r : Fin 32) (c : Fin 64) : Prop :=
  ∃ row col : Nat, row < n ∧ col < 8 ∧ (s.byte (s.i.toNat + row)).getLsbD (7 - col) = true ∧
    ((s.reg y).toNat + row) % 32 = r.val ∧ ((s.reg x).toNat + col) % 64 = c.val

/-! ### Safe runs -/

/-- The next step neither faults nor is refused. -/
def State.Safe (s : State) : Prop := ∃ t : State, step s = .next t

/-- The next `k` steps neither fault nor are refused; a fault ends a run (spec/60_exceptions.md R197; log 1). -/
def State.SafeFor : Nat → State → Prop
  | 0, _ => True
  | k + 1, s => ∃ t : State, step s = .next t ∧ State.SafeFor k t

end Sys2Proof.Machine
end

