-- ==== Sys2Proof/Certificates/Slice0/Obligations.lean ====
section
/-! DEFINITION. The statements for the provers: what each instruction, each host operation and the machine as a whole
do, rule by rule. An `exec` statement speaks of the state `s` that fetch left, so `s.pc` is the spec's `npc`
(spec/40_tick_cycle.md R81). -/

open Sys2Proof Sys2Proof.Machine

/-! ### The tick cycle and control flow -/

/-- R85: `0000` is a defined instruction that does nothing beyond fetch, with result `Ok` and no diagnostic. With memory
as reset leaves it, every address from 80 on holds it, and at 4096 the fetch faults. That the fault records `PC` is R216
with the spec's decision D8 (log 13). -/
def Obligations.NopOnlyAdvances : Prop :=
  Selects 0x0000 .nop ∧ (∀ s : State, exec .nop s = .next s) ∧
  (∀ (b : Byte) (s : State), s.pc.toNat < 4095 → s.wordAt s.pc.toNat = 0x0000 →
    ∃ t, tick b s = .next (t, .ok) ∧ t.pc.toNat = s.pc.toNat + 2 ∧ KeepsAllBut [.inputs] s t) ∧
  ∀ (b : Byte) (s : State), s.mem = State.reset.mem → 80 ≤ s.pc.toNat →
    (s.pc.toNat < 4095 → s.wordAt s.pc.toNat = 0x0000) ∧
    (s.pc.toNat = 4096 → tick b s = .fault (.programCounterOutOfBounds s.pc))

/-- R100: `00EE` pops one address into `PC`, which lies between 2 and 4096 where the live entries do (they always do:
`EveryStepKeepsTheInvariant`), or faults when the stack is empty. That the popped entry keeps its bits is R20 with the
spec's decision D28 (log 11); the address and the word the fault records are R216 with D8 (log 13). -/
def Obligations.RetPopsIntoPc : Prop :=
  Selects 0x00EE .ret ∧
  ∀ s : State,
    (0 < s.sp.val → ∃ t, exec .ret s = .next t ∧ t.sp.val + 1 = s.sp.val ∧ s.stack[t.sp.val]? = some t.pc ∧
      t.stack = s.stack ∧ (s.LiveEntriesInRange → 2 ≤ t.pc.toNat ∧ t.pc.toNat ≤ 4096) ∧
      KeepsAllBut [.callStack] s t) ∧
    (s.sp.val = 0 → exec .ret s = .fault (.callStackUnderflow (s.pc - 2) 0x00EE))

/-- R101: `1nnn` sets `PC` to `nnn`. -/
def Obligations.JumpSetsPc : Prop :=
  ∀ nnn : Addr12, Selects (0x1000 + nnn.toNat) (.jp nnn) ∧
  ∀ s : State, ∃ t, exec (.jp nnn) s = .next t ∧ t.pc.toNat = nnn.toNat ∧ KeepsAllBut [] s t

/-- R102: `2nnn` pushes the address of the next instruction and jumps, or faults when 16 entries are held. The address
and the word the fault records are R216 with the spec's decision D8 (log 13). -/
def Obligations.CallPushesAndJumps : Prop :=
  ∀ nnn : Addr12, Selects (0x2000 + nnn.toNat) (.call nnn) ∧
  ∀ s : State,
    (s.sp.val < 16 → ∃ t, exec (.call nnn) s = .next t ∧ t.sp.val = s.sp.val + 1 ∧
      (∀ j : Fin 16, t.stack[j] = if j.val = s.sp.val then s.pc else s.stack[j]) ∧
      t.pc.toNat = nnn.toNat ∧ KeepsAllBut [.callStack] s t) ∧
    (s.sp.val = 16 →
      exec (.call nnn) s = .fault (.callStackOverflow (s.pc - 2) (BitVec.ofNat 16 (0x2000 + nnn.toNat))))

/-- R104, the spec's decision D13: `Bnnn` sets `PC` to `V0 + nnn`, not reduced modulo 4096. -/
def Obligations.JumpV0AddsWithoutWrap : Prop :=
  ∀ nnn : Addr12, Selects (0xB000 + nnn.toNat) (.jpV0 nnn) ∧
  ∀ s : State, ∃ t, exec (.jpV0 nnn) s = .next t ∧ t.pc.toNat = (s.reg 0).toNat + nnn.toNat ∧ KeepsAllBut [] s t

/-- R105: `3xnn` skips exactly when `Vx = nn`. -/
def Obligations.SkipEqualImmediate : Prop :=
  ∀ (x : Reg) (nn : Byte), Selects (0x3000 + x.val * 256 + nn.toNat) (.seImm x nn) ∧
  ∀ s : State, ∃ t, exec (.seImm x nn) s = .next t ∧
    t.pc = (if (s.reg x).toNat = nn.toNat then s.pc + 2 else s.pc) ∧ KeepsAllBut [] s t

/-- R106: `4xnn` skips exactly when `Vx ≠ nn`. -/
def Obligations.SkipNotEqualImmediate : Prop :=
  ∀ (x : Reg) (nn : Byte), Selects (0x4000 + x.val * 256 + nn.toNat) (.sneImm x nn) ∧
  ∀ s : State, ∃ t, exec (.sneImm x nn) s = .next t ∧
    t.pc = (if (s.reg x).toNat = nn.toNat then s.pc else s.pc + 2) ∧ KeepsAllBut [] s t

/-- R107: `5xy0` skips exactly when `Vx = Vy`; with `x = y` it always skips. -/
def Obligations.SkipEqualRegisters : Prop :=
  ∀ x y : Reg, Selects (0x5000 + x.val * 256 + y.val * 16) (.seReg x y) ∧
  ∀ s : State, ∃ t, exec (.seReg x y) s = .next t ∧
    t.pc = (if (s.reg x).toNat = (s.reg y).toNat then s.pc + 2 else s.pc) ∧ KeepsAllBut [] s t

/-- R108: `9xy0` skips exactly when `Vx ≠ Vy`; with `x = y` it never skips. -/
def Obligations.SkipNotEqualRegisters : Prop :=
  ∀ x y : Reg, Selects (0x9000 + x.val * 256 + y.val * 16) (.sneReg x y) ∧
  ∀ s : State, ∃ t, exec (.sneReg x y) s = .next t ∧
    t.pc = (if (s.reg x).toNat = (s.reg y).toNat then s.pc else s.pc + 2) ∧ KeepsAllBut [] s t

/-- R103 (derived in the spec from R100 and R102): a return at the depth a call made, with that entry unchanged in
between, comes back to the instruction after the call and to the depth before it. -/
def Obligations.ReturnUndoesCall : Prop :=
  ∀ (nnn : Addr12) (s : State), s.sp.val < 16 →
    ∃ t, exec (.call nnn) s = .next t ∧
      ∀ u : State, u.sp = t.sp → u.stack[s.sp.val]? = t.stack[s.sp.val]? →
        ∃ w, exec .ret u = .next w ∧ w.pc = s.pc ∧ w.sp = s.sp

/-! ### Register load, arithmetic, logic, shifts, random (spec/42_alu.md) -/

/-- R120: `6xnn` loads `nn`, `VF` being a register like any. -/
def Obligations.LoadImmediateSetsVx : Prop :=
  ∀ (x : Reg) (nn : Byte), Selects (0x6000 + x.val * 256 + nn.toNat) (.ldImm x nn) ∧
  ∀ s : State, ∃ t, exec (.ldImm x nn) s = .next t ∧ t.reg x = nn ∧
    t.pc = s.pc ∧ KeepsRegsBut [x] s t ∧ KeepsAllBut [.regs] s t

/-- R121: `7xnn` adds modulo 256 and never sets `VF` as a flag. -/
def Obligations.AddImmediateWrapsWithoutFlag : Prop :=
  ∀ (x : Reg) (nn : Byte), Selects (0x7000 + x.val * 256 + nn.toNat) (.addImm x nn) ∧
  ∀ s : State, ∃ t, exec (.addImm x nn) s = .next t ∧ (t.reg x).toNat = ((s.reg x).toNat + nn.toNat) % 256 ∧
    t.pc = s.pc ∧ KeepsRegsBut [x] s t ∧ KeepsAllBut [.regs] s t

/-- R122: `8xy0` copies `Vy` to `Vx`. -/
def Obligations.MoveCopiesVy : Prop :=
  ∀ x y : Reg, Selects (0x8000 + x.val * 256 + y.val * 16) (.ldReg x y) ∧
  ∀ s : State, ∃ t, exec (.ldReg x y) s = .next t ∧ t.reg x = s.reg y ∧
    t.pc = s.pc ∧ KeepsRegsBut [x] s t ∧ KeepsAllBut [.regs] s t

/-- R123 to R125, the spec's decision D15 (log 20): the logic instructions, bit by bit, with no flag written. -/
def Obligations.LogicIsBitwiseWithoutFlag : Prop :=
  ∀ x y : Reg,
  Selects (0x8001 + x.val * 256 + y.val * 16) (.orReg x y) ∧
  Selects (0x8002 + x.val * 256 + y.val * 16) (.andReg x y) ∧
  Selects (0x8003 + x.val * 256 + y.val * 16) (.xorReg x y) ∧
  ∀ s : State,
    (∃ t, exec (.orReg x y) s = .next t ∧
      (∀ k < 8, (t.reg x).getLsbD k = ((s.reg x).getLsbD k || (s.reg y).getLsbD k)) ∧
      t.pc = s.pc ∧ KeepsRegsBut [x] s t ∧ KeepsAllBut [.regs] s t) ∧
    (∃ t, exec (.andReg x y) s = .next t ∧
      (∀ k < 8, (t.reg x).getLsbD k = ((s.reg x).getLsbD k && (s.reg y).getLsbD k)) ∧
      t.pc = s.pc ∧ KeepsRegsBut [x] s t ∧ KeepsAllBut [.regs] s t) ∧
    (∃ t, exec (.xorReg x y) s = .next t ∧
      (∀ k < 8, (t.reg x).getLsbD k = ((s.reg x).getLsbD k != (s.reg y).getLsbD k)) ∧
      t.pc = s.pc ∧ KeepsRegsBut [x] s t ∧ KeepsAllBut [.regs] s t)

/-- R126: `8xy4` adds modulo 256, then `VF` is the carry; with `x = 0xF` the flag stays. -/
def Obligations.AddSetsCarry : Prop :=
  ∀ x y : Reg, Selects (0x8004 + x.val * 256 + y.val * 16) (.addReg x y) ∧
  ∀ s : State, ∃ t, exec (.addReg x y) s = .next t ∧
    (x ≠ flagReg → (t.reg x).toNat = ((s.reg x).toNat + (s.reg y).toNat) % 256) ∧
    (t.reg flagReg).toNat = (if 255 < (s.reg x).toNat + (s.reg y).toNat then 1 else 0) ∧
    t.pc = s.pc ∧ KeepsRegsBut [x, flagReg] s t ∧ KeepsAllBut [.regs] s t

/-- R127: `8xy5` subtracts `Vy` from `Vx`, then `VF` is 1 exactly when no borrow occurred. -/
def Obligations.SubSetsNotBorrow : Prop :=
  ∀ x y : Reg, Selects (0x8005 + x.val * 256 + y.val * 16) (.subReg x y) ∧
  ∀ s : State, ∃ t, exec (.subReg x y) s = .next t ∧
    (x ≠ flagReg → (t.reg x).toNat =
      if (s.reg y).toNat ≤ (s.reg x).toNat then (s.reg x).toNat - (s.reg y).toNat
      else (s.reg x).toNat + 256 - (s.reg y).toNat) ∧
    (t.reg flagReg).toNat = (if (s.reg y).toNat ≤ (s.reg x).toNat then 1 else 0) ∧
    t.pc = s.pc ∧ KeepsRegsBut [x, flagReg] s t ∧ KeepsAllBut [.regs] s t

/-- R129: `8xy7` subtracts `Vx` from `Vy` into `Vx`, then `VF` is 1 exactly when no borrow occurred. -/
def Obligations.ReverseSubSetsNotBorrow : Prop :=
  ∀ x y : Reg, Selects (0x8007 + x.val * 256 + y.val * 16) (.subnReg x y) ∧
  ∀ s : State, ∃ t, exec (.subnReg x y) s = .next t ∧
    (x ≠ flagReg → (t.reg x).toNat =
      if (s.reg x).toNat ≤ (s.reg y).toNat then (s.reg y).toNat - (s.reg x).toNat
      else (s.reg y).toNat + 256 - (s.reg x).toNat) ∧
    (t.reg flagReg).toNat = (if (s.reg x).toNat ≤ (s.reg y).toNat then 1 else 0) ∧
    t.pc = s.pc ∧ KeepsRegsBut [x, flagReg] s t ∧ KeepsAllBut [.regs] s t

/-- R128 and R130, the spec's decision D17 (log 21): the shifts move `Vx` by one bit whatever `y` is, then `VF` is the
bit shifted out, also when `x = 0xF`. -/
def Obligations.ShiftsIgnoreVyAndSetVf : Prop :=
  ∀ x y : Reg,
  Selects (0x8006 + x.val * 256 + y.val * 16) (.shr x y) ∧
  Selects (0x800E + x.val * 256 + y.val * 16) (.shl x y) ∧
  ∀ s : State,
    (∃ t, exec (.shr x y) s = .next t ∧ (x ≠ flagReg → (t.reg x).toNat = (s.reg x).toNat / 2) ∧
      (t.reg flagReg).toNat = (if (s.reg x).getLsbD 0 then 1 else 0) ∧
      t.pc = s.pc ∧ KeepsRegsBut [x, flagReg] s t ∧ KeepsAllBut [.regs] s t) ∧
    (∃ t, exec (.shl x y) s = .next t ∧ (x ≠ flagReg → (t.reg x).toNat = 2 * (s.reg x).toNat % 256) ∧
      (t.reg flagReg).toNat = (if (s.reg x).getLsbD 7 then 1 else 0) ∧
      t.pc = s.pc ∧ KeepsRegsBut [x, flagReg] s t ∧ KeepsAllBut [.regs] s t)

/-- R131: `Cxnn` leaves in `Vx` the tick's random byte ANDed with `nn`, whatever that byte is. -/
def Obligations.RandomIsMaskedByImmediate : Prop :=
  ∀ (x : Reg) (nn : Byte), Selects (0xC000 + x.val * 256 + nn.toNat) (.rnd x nn) ∧
  (∀ s : State, ∃ t, exec (.rnd x nn) s = .next t ∧
    (∀ k < 8, (t.reg x).getLsbD k = (s.rnd.getLsbD k && nn.getLsbD k)) ∧
    t.pc = s.pc ∧ KeepsRegsBut [x] s t ∧ KeepsAllBut [.regs] s t) ∧
  ∀ (b : Byte) (s : State), s.pc.toNat < 4095 →
    s.wordAt s.pc.toNat = BitVec.ofNat 16 (0xC000 + x.val * 256 + nn.toNat) →
    ∃ t, tick b s = .next (t, .ok) ∧ ∀ k < 8, (t.reg x).getLsbD k = (b.getLsbD k && nn.getLsbD k)

/-! ### Index register and memory (spec/43_index_memory.md) -/

/-- R140: `Annn` loads `I` with `nnn` and accesses nothing. -/
def Obligations.LoadIndexSetsI : Prop :=
  ∀ nnn : Addr12, Selects (0xA000 + nnn.toNat) (.ldI nnn) ∧
  ∀ s : State, ∃ t, exec (.ldI nnn) s = .next t ∧ t.i.toNat = nnn.toNat ∧ t.pc = s.pc ∧ KeepsAllBut [.index] s t

/-- R141, the spec's decision D12 (log 17): `Fx1E` adds `Vx` to `I` modulo 65536, with no flag and no fault. -/
def Obligations.AddIndexWrapsAtSixteenBits : Prop :=
  ∀ x : Reg, Selects (0xF01E + x.val * 256) (.addI x) ∧
  ∀ s : State, ∃ t, exec (.addI x) s = .next t ∧ t.i.toNat = (s.i.toNat + (s.reg x).toNat) % 65536 ∧
    t.pc = s.pc ∧ KeepsAllBut [.index] s t

/-- R142, the spec's decision D11 (log 16): `Fx29` sets `I` to five times the whole byte `Vx`. -/
def Obligations.GlyphAddressIsFiveTimesVx : Prop :=
  ∀ x : Reg, Selects (0xF029 + x.val * 256) (.ldF x) ∧
  ∀ s : State, ∃ t, exec (.ldF x) s = .next t ∧ t.i.toNat = (s.reg x).toNat * 5 ∧
    t.pc = s.pc ∧ KeepsAllBut [.index] s t

/-- R143, the spec's decisions D7 and D14 (logs 15, 19): `Fx33` writes the hundreds, tens and units digits of `Vx` at
`I`, `I + 1`, `I + 2` and nothing else, or faults when `I > 4093`. The fault records its address and word by
D8 (log 13). -/
def Obligations.BcdWritesThreeDigits : Prop :=
  ∀ x : Reg, Selects (0xF033 + x.val * 256) (.ldB x) ∧
  ∀ s : State, s.mem.wf = true →
    (s.i.toNat ≤ 4093 → ∃ t, exec (.ldB x) s = .next t ∧
      (t.byte s.i.toNat).toNat = (s.reg x).toNat / 100 ∧
      (t.byte (s.i.toNat + 1)).toNat = (s.reg x).toNat / 10 % 10 ∧
      (t.byte (s.i.toNat + 2)).toNat = (s.reg x).toNat % 10 ∧
      (∀ a, a < s.i.toNat ∨ s.i.toNat + 2 < a → t.byte a = s.byte a) ∧
      t.pc = s.pc ∧ KeepsAllBut [.memory] s t) ∧
    (4093 < s.i.toNat →
      exec (.ldB x) s = .fault (.memoryAccessOutOfBounds (s.pc - 2) (BitVec.ofNat 16 (0xF033 + x.val * 256))))

/-- R145, the spec's decisions D7 and D14 (logs 15, 19): `Fx55` writes `V0` to `Vx` at `I` to `I + x` and nothing else,
or faults when `I + x > 4095`. The fault records its address and word by D8 (log 13). -/
def Obligations.StoreWritesV0ToVx : Prop :=
  ∀ x : Reg, Selects (0xF055 + x.val * 256) (.storeRegs x) ∧
  ∀ s : State, s.mem.wf = true →
    (s.i.toNat + x.val ≤ 4095 → ∃ t, exec (.storeRegs x) s = .next t ∧
      (∀ k : Reg, k.val ≤ x.val → t.byte (s.i.toNat + k.val) = s.reg k) ∧
      (∀ a, a < s.i.toNat ∨ s.i.toNat + x.val < a → t.byte a = s.byte a) ∧
      t.pc = s.pc ∧ KeepsAllBut [.memory] s t) ∧
    (4095 < s.i.toNat + x.val →
      exec (.storeRegs x) s =
        .fault (.memoryAccessOutOfBounds (s.pc - 2) (BitVec.ofNat 16 (0xF055 + x.val * 256))))

/-- R146, the spec's decisions D7 and D14 (logs 15, 19): `Fx65` loads `V0` to `Vx` from `I` to `I + x`, or faults when
`I + x > 4095`. The fault records its address and word by D8 (log 13). -/
def Obligations.LoadReadsV0ToVx : Prop :=
  ∀ x : Reg, Selects (0xF065 + x.val * 256) (.loadRegs x) ∧
  ∀ s : State,
    (s.i.toNat + x.val ≤ 4095 → ∃ t, exec (.loadRegs x) s = .next t ∧
      (∀ k : Reg, k.val ≤ x.val → t.reg k = s.byte (s.i.toNat + k.val)) ∧
      (∀ k : Reg, x.val < k.val → t.reg k = s.reg k) ∧
      t.pc = s.pc ∧ KeepsAllBut [.regs] s t) ∧
    (4095 < s.i.toNat + x.val →
      exec (.loadRegs x) s = .fault (.memoryAccessOutOfBounds (s.pc - 2) (BitVec.ofNat 16 (0xF065 + x.val * 256))))

/-- spec/95_test_vectors.md part 4 item 6: what `Fx55` stored, `Fx65` with the same `x` and `I` brings back, whatever
happened to the registers in between, if those bytes were not rewritten. -/
def Obligations.LoadUndoesStore : Prop :=
  ∀ (x : Reg) (s : State), s.mem.wf = true → s.i.toNat + x.val ≤ 4095 →
    ∃ t, exec (.storeRegs x) s = .next t ∧
      ∀ u : State, u.i = s.i → (∀ k : Reg, k.val ≤ x.val → u.byte (s.i.toNat + k.val) = t.byte (s.i.toNat + k.val)) →
        ∃ w, exec (.loadRegs x) u = .next w ∧ ∀ k : Reg, k.val ≤ x.val → w.reg k = s.reg k

/-! ### Display (spec/44_display.md) -/

/-- R160: `00E0` clears every pixel and leaves `VF` alone. -/
def Obligations.ClearScreenClearsEveryPixel : Prop :=
  Selects 0x00E0 .cls ∧
  ∀ s : State, ∃ t, exec .cls s = .next t ∧ (∀ (r : Fin 32) (c : Fin 64), t.pixel r c = false) ∧
    t.pc = s.pc ∧ KeepsAllBut [.display] s t

/-- R161 to R164: `Dxyn` inverts exactly the pixels its sprite bits cover, and `VF` is the collision; out of bounds it
faults. The spec's decisions it rests on: D7, the bounds and that they are checked first (log 15); D14, `I` is kept
(log 19); D17, the coordinates are sampled before `VF` is written (log 21); D30, `n = 0` checks nothing and clears `VF`
(log 23); D8, what the fault records (log 13). -/
def Obligations.DrawInvertsCoveredPixels : Prop :=
  ∀ (x y : Reg) (n : Nat), n ≤ 15 → Selects (0xD000 + x.val * 256 + y.val * 16 + n) (.drw x y n) ∧
  ∀ s : State,
    (n = 0 ∨ s.i.toNat + n - 1 ≤ 4095 → ∃ t, exec (.drw x y n) s = .next t ∧
      (∀ (r : Fin 32) (c : Fin 64),
        (SpriteCovers s x y n r c → t.pixel r c = !(s.pixel r c)) ∧
        (¬SpriteCovers s x y n r c → t.pixel r c = s.pixel r c)) ∧
      ((∃ (r : Fin 32) (c : Fin 64), s.pixel r c = true ∧ t.pixel r c = false) → t.reg flagReg = 1) ∧
      ((¬∃ (r : Fin 32) (c : Fin 64), s.pixel r c = true ∧ t.pixel r c = false) → t.reg flagReg = 0) ∧
      t.pc = s.pc ∧ KeepsRegsBut [flagReg] s t ∧ KeepsAllBut [.regs, .display] s t) ∧
    (0 < n ∧ 4095 < s.i.toNat + n - 1 →
      exec (.drw x y n) s =
        .fault (.memoryAccessOutOfBounds (s.pc - 2) (BitVec.ofNat 16 (0xD000 + x.val * 256 + y.val * 16 + n))))

/-- R165 (derived in the spec): drawing a sprite a second time restores the framebuffer, and the second draw collides
exactly when some covered pixel was clear before the first; `x` and `y` not `0xF`, so that the place is the same. -/
def Obligations.DrawTwiceRestores : Prop :=
  ∀ (x y : Reg) (n : Nat) (s : State), x ≠ flagReg → y ≠ flagReg → n ≤ 15 → (n = 0 ∨ s.i.toNat + n - 1 ≤ 4095) →
    ∃ t u, exec (.drw x y n) s = .next t ∧ exec (.drw x y n) t = .next u ∧
      (∀ (r : Fin 32) (c : Fin 64), u.pixel r c = s.pixel r c) ∧
      (u.reg flagReg = 1 ↔ ∃ (r : Fin 32) (c : Fin 64), SpriteCovers s x y n r c ∧ s.pixel r c = false)

/-! ### Keypad and timer instructions (spec/45_keypad_timers.md) -/

/-- R170, R171 and R176, the spec's decision D9 (log 14): the key skips follow the latch of the key `Vx` names, and
fault when `Vx` exceeds 15. The fault records its address and word by D8 (log 13). -/
def Obligations.KeySkipsFollowTheLatch : Prop :=
  ∀ x : Reg, Selects (0xE09E + x.val * 256) (.skp x) ∧ Selects (0xE0A1 + x.val * 256) (.sknp x) ∧
  ∀ s : State,
    (∀ k : Fin 16, (s.reg x).toNat = k.val →
      (∃ t, exec (.skp x) s = .next t ∧ t.pc = (if s.keys[k] = true then s.pc + 2 else s.pc) ∧ KeepsAllBut [] s t) ∧
      (∃ t, exec (.sknp x) s = .next t ∧ t.pc = (if s.keys[k] = false then s.pc + 2 else s.pc) ∧
        KeepsAllBut [] s t)) ∧
    (15 < (s.reg x).toNat →
      exec (.skp x) s = .fault (.keyIndexOutOfRange (s.pc - 2) (BitVec.ofNat 16 (0xE09E + x.val * 256))) ∧
      exec (.sknp x) s = .fault (.keyIndexOutOfRange (s.pc - 2) (BitVec.ofNat 16 (0xE0A1 + x.val * 256))))

/-- R172, the spec's decision D10 (log 4: `KEYWAIT_PICK = lowest`): `Fx0A` goes back to its own address and changes
nothing while no key is pressed, and else loads the smallest pressed index. -/
def Obligations.KeyWaitLoadsLowestKey : Prop :=
  ∀ x : Reg, Selects (0xF00A + x.val * 256) (.ldVxK x) ∧
  ∀ s : State,
    ((∀ k : Fin 16, s.keys[k] = false) → ∃ t, exec (.ldVxK x) s = .next t ∧ t.pc = s.pc - 2 ∧ KeepsAllBut [] s t) ∧
    (∀ k : Fin 16, s.keys[k] = true → (∀ j : Fin 16, j < k → s.keys[j] = false) →
      ∃ t, exec (.ldVxK x) s = .next t ∧ (t.reg x).toNat = k.val ∧
        t.pc = s.pc ∧ KeepsRegsBut [x] s t ∧ KeepsAllBut [.regs] s t)

/-- D10: under either admitted value of `KEYWAIT_PICK` and for every draw, a key is picked exactly when one is pressed,
and it is a pressed key; under `any` every pressed key can be picked. -/
def Obligations.KeyPickIsAPressedKey : Prop :=
  ∀ keys : Vector Bool 16,
    (∀ (pick : Config.KeywaitPick) (draw : Nat),
      (keyWaitPick pick draw keys = none ↔ ∀ k : Fin 16, keys[k] = false) ∧
      ∀ k : Fin 16, keyWaitPick pick draw keys = some k → keys[k] = true) ∧
    ∀ k : Fin 16, keys[k] = true → ∃ draw, keyWaitPick .any draw keys = some k

/-- R173: `Fx07` loads `DT` into `Vx`. -/
def Obligations.LoadDelayTimerIntoVx : Prop :=
  ∀ x : Reg, Selects (0xF007 + x.val * 256) (.ldVxDT x) ∧
  ∀ s : State, ∃ t, exec (.ldVxDT x) s = .next t ∧ t.reg x = s.dt ∧
    t.pc = s.pc ∧ KeepsRegsBut [x] s t ∧ KeepsAllBut [.regs] s t

/-- R174: `Fx15` loads `Vx` into `DT`. -/
def Obligations.SetDelayTimerFromVx : Prop :=
  ∀ x : Reg, Selects (0xF015 + x.val * 256) (.ldDTVx x) ∧
  ∀ s : State, ∃ t, exec (.ldDTVx x) s = .next t ∧ t.dt = s.reg x ∧ t.pc = s.pc ∧ KeepsAllBut [.delayTimer] s t

/-- R175: `Fx18` loads `Vx` into `ST`, and `sound_active` follows. -/
def Obligations.SetSoundTimerFromVx : Prop :=
  ∀ x : Reg, Selects (0xF018 + x.val * 256) (.ldSTVx x) ∧
  ∀ s : State, ∃ t, exec (.ldSTVx x) s = .next t ∧ t.st = s.reg x ∧
    (t.soundActive = true ↔ 0 < (s.reg x).toNat) ∧ t.pc = s.pc ∧ KeepsAllBut [.soundTimer] s t

/-! ### Reset, load and the host operations -/

/-- R25: every item of the state after reset. -/
def Obligations.ResetHoldsTheListedValues : Prop :=
  (∀ r : Reg, State.reset.reg r = 0) ∧ State.reset.i = 0 ∧ State.reset.pc.toNat = 512 ∧ State.reset.sp.val = 0 ∧
  (∀ j : Fin 16, State.reset.stack[j] = 0) ∧ State.reset.dt = 0 ∧ State.reset.st = 0 ∧
  (∀ a : Fin 80, State.reset.byte a.val = params.font[a]) ∧ (∀ a, 80 ≤ a → State.reset.byte a = 0) ∧
  (∀ (r : Fin 32) (c : Fin 64), State.reset.pixel r c = false) ∧ (∀ k : Fin 16, State.reset.keys[k] = false) ∧
  State.reset.soundActive = false

/-- R230 and R231, the spec's decision D21 (log 25): `PowerOn` and `Reset` put the whole machine at the reset values,
whatever it held, and never fail. -/
def Obligations.ResetRestoresEverything : Prop :=
  ∀ (s : State) (op : HostOp), op = .powerOn ∨ op = .reset →
    ∃ t, perform op s = .next (t, .none) ∧ SameMachine State.reset t ∧ Part.same s t .inputs

/-- R232 and R233, the spec's decision D20 (log 24): an image of at most 3584 bytes goes to 512 and up and nothing else
changes; a longer one is rejected whole. -/
def Obligations.LoadCopiesOrRejects : Prop :=
  ∀ (bytes : List Byte) (s : State), s.mem.wf = true →
    (bytes.length ≤ 3584 → ∃ t, perform (.load bytes) s = .next (t, .ok) ∧
      (∀ (k : Nat) (b : Byte), bytes[k]? = some b → t.byte (512 + k) = b) ∧
      (∀ a, a < 512 ∨ 512 + bytes.length ≤ a → t.byte a = s.byte a) ∧
      t.pc = s.pc ∧ KeepsAllBut [.memory] s t) ∧
    (3584 < bytes.length → perform (.load bytes) s = .next (s, .romTooLarge))

/-- R205: a timer tick counts both channels down by one, saturating at 0, and touches nothing else; `k` of them leave
`max(t - k, 0)`. -/
def Obligations.TimerTicksCountDownToZero : Prop :=
  (∀ s : State, ∃ t stop, perform .timerTick s = .next (t, .soundStop stop) ∧ t.dt.toNat = s.dt.toNat - 1 ∧
    t.st.toNat = s.st.toNat - 1 ∧ t.pc = s.pc ∧ KeepsAllBut [.delayTimer, .soundTimer] s t) ∧
  ∀ (k : Nat) (b : Byte), (countDown^[k] b).toNat = b.toNat - k

/-- R206 and R207, the spec's decision D22 (log 26): `sound_stop` is given by exactly the timer tick that takes `ST`
from 1 to 0, which is when `sound_active` falls in a timer tick. -/
def Obligations.SoundStopIsTheFallOfSoundActive : Prop :=
  ∀ (s t : State) (stop : Bool), perform .timerTick s = .next (t, .soundStop stop) →
    (stop = true ↔ s.st.toNat = 1) ∧ (stop = true ↔ s.soundActive = true ∧ t.soundActive = false) ∧
    (t.soundActive = true ↔ 0 < t.st.toNat)

/-- R208, the spec's decision D23 (log 27): `SetKey` writes one latch and nothing else. -/
def Obligations.SetKeyWritesOneLatch : Prop :=
  ∀ (k : Fin 16) (pressed : Bool) (s : State), ∃ t, perform (.setKey k pressed) s = .next (t, .none) ∧
    (∀ j : Fin 16, t.keys[j] = if j = k then pressed else s.keys[j]) ∧ t.pc = s.pc ∧ KeepsAllBut [.keypad] s t

/-- R210: `ReadFramebuffer` returns the 2048 bits, pixel `(r, c)` at index `r × 64 + c`, and changes no state. -/
def Obligations.ReadFramebufferIsRowMajor : Prop :=
  ∀ s : State, ∃ bits, perform .readFramebuffer s = .next (s, .framebuffer bits) ∧ bits.length = 2048 ∧
    ∀ (r : Fin 32) (c : Fin 64), bits[r.val * 64 + c.val]? = some (s.pixel r c)

/-! ### Fetch, step, faults -/

/-- R81 and R42: fetch reads the big-endian word at `PC` and adds 2 to `PC` for every word, or faults when `PC` is at
least 4095. That it faults at 4095 itself is R43 with the spec's decision D3 (log 18); that the fault records `PC` is
R216 with D8 (log 13). -/
def Obligations.FetchReadsBigEndianAndAdvances : Prop :=
  ∀ s : State,
    (s.pc.toNat < 4095 → ∃ op t, fetch s = .ok (op, t) ∧
      op.toNat = (s.byte s.pc.toNat).toNat * 256 + (s.byte (s.pc.toNat + 1)).toNat ∧
      t.pc.toNat = s.pc.toNat + 2 ∧ KeepsAllBut [] s t) ∧
    (4095 ≤ s.pc.toNat → fetch s = .error (.programCounterOutOfBounds s.pc))

/-- The step runs the decoded instruction: when the bytes at `PC` decode to `i`, a step that performs a tick, be it the
host's scheduled one with byte `b` or the one with a free byte when nothing is scheduled (log 7), is `exec i` of the
state with `PC` past the word and the tick's byte presented. -/
def Obligations.StepRunsTheDecodedInstruction : Prop :=
  ∀ (s : State) (i : Instr) (rest : List Byte), s.pc.toNat < 4095 →
    decodeBytes [s.byte s.pc.toNat, s.byte (s.pc.toNat + 1)] = .ok (i, rest) →
    rest = [] ∧ i.wellFormed = true ∧
    (s.schedule = [] →
      step s = exec i { s with pc := s.pc + 2, rnd := Config.randomByte s.draws, draws := s.draws + 1 }) ∧
    ∀ (b : Byte) (ops : List HostOp), s.schedule = .tick b :: ops →
      step s = exec i { s with pc := s.pc + 2, rnd := b, draws := s.draws + 1, schedule := ops }

/-- R209 (log 7): a step performs the next operation of the host, in the host's order. With nothing scheduled it is a
tick with a free byte; a scheduled tick is that tick, whatever it answers; any other operation is performed whole and
neither faults nor is refused. -/
def Obligations.StepPerformsScheduledOperations : Prop :=
  (∀ s : State, s.schedule = [] → step s = dropOutput (tick (Config.randomByte s.draws) s)) ∧
  (∀ (s : State) (b : Byte) (ops : List HostOp), s.schedule = .tick b :: ops →
    step s = dropOutput (tick b { s with schedule := ops })) ∧
  ∀ (s : State) (op : HostOp) (ops : List HostOp), s.schedule = op :: ops → (∀ b : Byte, op ≠ .tick b) →
    ∃ t out, perform op { s with schedule := ops } = .next (t, out) ∧ step s = .next t ∧ t.schedule = ops

/-- R86: a word that matches no row of the opcode table is a no-op whose tick completes with the diagnostic. -/
def Obligations.UnknownOpcodeIsANoOp : Prop :=
  ∀ (b : Byte) (s : State), s.pc.toNat < 4095 →
    (∀ row ∈ opcodeTable, row.covers (s.wordAt s.pc.toNat) = false) →
    ∃ t, tick b s = .next (t, .okUnknownOpcode (s.wordAt s.pc.toNat)) ∧ t.pc.toNat = s.pc.toNat + 2 ∧
      KeepsAllBut [.inputs] s t

/-- R200 (derived in the spec): an instruction faults exactly under its one condition, and is never refused. -/
def Obligations.InstructionsFaultExactlyAsRuled : Prop :=
  ∀ (i : Instr) (s : State), ((∃ f, exec i s = .fault f) ↔ FaultCondition i s) ∧ ∀ r, exec i s ≠ .refused r

/-- R216, the spec's decision D8 (log 13): the fault of a tick records the address of the faulting instruction, which
`PC` still holds, and the word that was fetched; a fetch fault records no word. -/
def Obligations.FaultRecordsAddressAndWord : Prop :=
  ∀ (b : Byte) (s : State) (f : Fault), tick b s = .fault f →
    f.pc0 = s.pc ∧ f.op = (if s.pc.toNat < 4095 then some (s.wordAt s.pc.toNat) else none) ∧
    (f = .programCounterOutOfBounds s.pc ↔ 4095 ≤ s.pc.toNat)

/-! ### Encoding (spec/30_encoding.md) -/

/-- Words written out bit by bit from the spec's encodings, one or more of each group, select their instructions. -/
def Obligations.SampleWordsDecode : Prop :=
  decode 0x0000#16 = .ok .nop ∧ decode 0x00E0#16 = .ok .cls ∧ decode 0x00EE#16 = .ok .ret ∧
  decode 0x1ABC#16 = .ok (.jp 0xABC) ∧ decode 0x3142#16 = .ok (.seImm 1 0x42) ∧ decode 0x5340#16 = .ok (.seReg 3 4) ∧
  decode 0x8F26#16 = .ok (.shr 15 2) ∧ decode 0xD12F#16 = .ok (.drw 1 2 15) ∧ decode 0xEAA1#16 = .ok (.sknp 10) ∧
  decode 0xF755#16 = .ok (.storeRegs 7) ∧ decode 0x8018#16 = .error (.unknownOpcode 0x8018) ∧
  decodeBytes [0xA3, 0x00, 0x12] = .ok (.ldI 0x300, [0x12])

/-- Decoding the encoding of a well-formed instruction gives it back, with every operand at every value. -/
def Obligations.DecodeOfEncode : Prop :=
  ∀ i : Instr, i.wellFormed = true → decode (encode i) = .ok i

/-- A word has one meaning: the instruction it selects is well formed and encodes to that word. -/
def Obligations.EncodeOfDecode : Prop :=
  ∀ (op : Word) (i : Instr), decode op = .ok i → i.wellFormed = true ∧ encode i = op

/-- R63 and R64, the spec's decision D16 (log 22): a word selects a row's instruction exactly when it matches the row
under its mask, and no word matches two rows. -/
def Obligations.DecodeAgreesWithTheOpcodeTable : Prop :=
  ∀ op : Word,
    (∀ row ∈ opcodeTable, row.covers op = true ↔ ∃ i, decode op = .ok i ∧ i.mnemonic = row.mnemonic) ∧
    (∀ i, decode op = .ok i → ∃ row ∈ opcodeTable, row.mnemonic = i.mnemonic) ∧
    ∀ row ∈ opcodeTable, ∀ row' ∈ opcodeTable, row.covers op = true → row'.covers op = true → row = row'

/-- R68, the spec's decision D16 (log 22): the words with no meaning are exactly those of the spec's list (a) to (f). -/
def Obligations.UnknownWordsAreTheListedOnes : Prop :=
  ∀ op : Word, decode op = .error (.unknownOpcode op) ↔
    (op.toNat / 4096 = 0 ∧ op.toNat ≠ 0x0000 ∧ op.toNat ≠ 0x00E0 ∧ op.toNat ≠ 0x00EE) ∨
    (op.toNat / 4096 = 5 ∧ op.toNat % 16 ≠ 0) ∨
    (op.toNat / 4096 = 8 ∧ op.toNat % 16 ∈ [8, 9, 0xA, 0xB, 0xC, 0xD, 0xF]) ∨
    (op.toNat / 4096 = 9 ∧ op.toNat % 16 ≠ 0) ∨
    (op.toNat / 4096 = 0xE ∧ op.toNat % 256 ∉ [0x9E, 0xA1]) ∨
    (op.toNat / 4096 = 0xF ∧ op.toNat % 256 ∉ [0x07, 0x0A, 0x15, 0x18, 0x1E, 0x29, 0x33, 0x55, 0x65])

/-! ### Whole-machine rules -/

/-- The reset state meets the invariant. -/
def Obligations.ResetMeetsTheInvariant : Prop := State.reset.Inv

/-- R16 (derived in the spec): from every state that meets it, every step, whatever operation the host issues, keeps
the invariant: memory in canonical form, `PC` at most 0x10FE, live stack entries between 2 and 4096. -/
def Obligations.EveryStepKeepsTheInvariant : Prop :=
  ∀ s t : State, s.Inv → step s = .next t → t.Inv

/-- R14, with the decisions the instruction rules carry: where each instruction leaves `PC`; every instruction that is
not named leaves it where fetch left it. -/
def Obligations.PcGoesOnlyWhereRuled : Prop :=
  ∀ (i : Instr) (s t : State), exec i s = .next t →
    match i with
    | .jp nnn | .call nnn => t.pc.toNat = nnn.toNat
    | .jpV0 nnn => t.pc.toNat = (s.reg 0).toNat + nnn.toNat
    | .ret => s.stack[s.sp.val - 1]? = some t.pc
    | .seImm _ _ | .sneImm _ _ | .seReg _ _ | .sneReg _ _ | .skp _ | .sknp _ => t.pc = s.pc ∨ t.pc = s.pc + 2
    | .ldVxK _ => t.pc = (if s.keys = Vector.replicate 16 false then s.pc - 2 else s.pc)
    | _ => t.pc = s.pc

/-- R88: a tick never changes `KEYS`; it changes `DT` only by `Fx15` and `ST` only by `Fx18`, to the register's
value. -/
def Obligations.TickTouchesTimersOnlyByLoads : Prop :=
  ∀ (b : Byte) (s t : State) (out : Output), tick b s = .next (t, out) →
    t.keys = s.keys ∧
    (t.dt ≠ s.dt → ∃ x, decode (s.wordAt s.pc.toNat) = .ok (.ldDTVx x) ∧ t.dt = s.reg x) ∧
    (t.st ≠ s.st → ∃ x, decode (s.wordAt s.pc.toNat) = .ok (.ldSTVx x) ∧ t.st = s.reg x)

/-- The "written by" column of R10: each part of the state is changed only by the instructions listed for it. -/
def Obligations.PartsAreWrittenOnlyAsListed : Prop :=
  ∀ (i : Instr) (s t : State), exec i s = .next t →
    match i with
    | .cls => KeepsAllBut [.display] s t
    | .ret | .call _ => KeepsAllBut [.callStack] s t
    | .drw _ _ _ => KeepsAllBut [.display, .regs] s t
    | .ldI _ | .addI _ | .ldF _ => KeepsAllBut [.index] s t
    | .ldDTVx _ => KeepsAllBut [.delayTimer] s t
    | .ldSTVx _ => KeepsAllBut [.soundTimer] s t
    | .ldB _ | .storeRegs _ => KeepsAllBut [.memory] s t
    | .ldImm _ _ | .addImm _ _ | .ldReg _ _ | .orReg _ _ | .andReg _ _ | .xorReg _ _ | .addReg _ _ | .subReg _ _
    | .shr _ _ | .subnReg _ _ | .shl _ _ | .rnd _ _ | .ldVxDT _ | .ldVxK _ | .loadRegs _ => KeepsAllBut [.regs] s t
    | .nop | .jp _ | .jpV0 _ | .seImm _ _ | .sneImm _ _ | .seReg _ _ | .sneReg _ _ | .skp _ | .sknp _ =>
      KeepsAllBut [] s t

/-- R12: after each of the six flag-writing instructions `VF` is 0 or 1, and any other instruction changes `VF` only by
naming it as its destination. -/
def Obligations.VfIsWrittenOnlyAsRuled : Prop :=
  ∀ (i : Instr) (s t : State), exec i s = .next t →
    match i with
    | .addReg _ _ | .subReg _ _ | .shr _ _ | .subnReg _ _ | .shl _ _ | .drw _ _ _ =>
      t.reg flagReg = 0 ∨ t.reg flagReg = 1
    | .ldImm x _ | .addImm x _ | .ldReg x _ | .orReg x _ | .andReg x _ | .xorReg x _ | .rnd x _ | .ldVxDT x | .ldVxK x
    | .loadRegs x => x ≠ flagReg → t.reg flagReg = s.reg flagReg
    | _ => t.reg flagReg = s.reg flagReg

/-- R89 (derived in the spec): the ticks that complete and leave the whole machine as it was are exactly those of a
`1nnn` or `Bnnn` whose target is its own address and of an `Fx0A` while no key is pressed. -/
def Obligations.FixedPointsOfTheTick : Prop :=
  ∀ (b : Byte) (s : State), s.pc.toNat < 4095 →
    ((∃ t out, tick b s = .next (t, out) ∧ SameMachine s t) ↔
      (∃ nnn, decode (s.wordAt s.pc.toNat) = .ok (.jp nnn) ∧ nnn.toNat = s.pc.toNat) ∨
      (∃ nnn, decode (s.wordAt s.pc.toNat) = .ok (.jpV0 nnn) ∧ (s.reg 0).toNat + nnn.toNat = s.pc.toNat) ∨
      ∃ x, decode (s.wordAt s.pc.toNat) = .ok (.ldVxK x) ∧ ∀ k : Fin 16, s.keys[k] = false)
end

