-- ==== Sys2Proof/Laws/Decode.lean ====
section
/-! SUPPORT. The fields of an opcode word built from its fields, and bytes of words. -/

namespace Sys2Proof

/-- A word below 65536 is its own number. -/
theorem ofNat16_toNat {w : Nat} (h : w < 65536) : (BitVec.ofNat 16 w).toNat = w := by
  simp [Nat.mod_eq_of_lt h]

/-- The number of an encoded instruction fits a word. -/
theorem encodeNat_lt (i : Instr) : encodeNat i < 65536 := by
  cases i <;> simp only [encodeNat, fieldsXY] <;> omega

@[simp] theorem encode_toNat (i : Instr) : (encode i).toNat = encodeNat i :=
  ofNat16_toNat (encodeNat_lt i)

/-! ### Fields -/

theorem opX_eq {op : Word} {x : Reg} (h : op.toNat / 256 % 16 = x.val) : opX op = x := Fin.ext h

theorem opY_eq {op : Word} {y : Reg} (h : op.toNat / 16 % 16 = y.val) : opY op = y := Fin.ext h

theorem opNN_eq {op : Word} {nn : Byte} (h : op.toNat % 256 = nn.toNat) : opNN op = nn := by
  apply BitVec.eq_of_toNat_eq
  simp [opNN, h]

theorem opNNN_eq {op : Word} {nnn : Addr12} (h : op.toNat % 4096 = nnn.toNat) : opNNN op = nnn := by
  apply BitVec.eq_of_toNat_eq
  simp [opNNN, h]

/-- The fields of a word of shape `g nnn`. -/
theorem fields_nnn {op : Word} {g : Nat} {nnn : Addr12} (h : op.toNat = g * 4096 + nnn.toNat) :
    opGroup op = g ∧ opNNN op = nnn := by
  refine ⟨?_, opNNN_eq (by omega)⟩
  rw [opGroup]
  omega

/-- The fields of a word of shape `g x nn`. -/
theorem fields_xnn {op : Word} {g : Nat} {x : Reg} {nn : Byte} (h : op.toNat = g * 4096 + x.val * 256 + nn.toNat) :
    opGroup op = g ∧ opX op = x ∧ opNN op = nn ∧ op.toNat % 256 = nn.toNat := by
  refine ⟨?_, opX_eq (by omega), opNN_eq (by omega), by omega⟩
  rw [opGroup]
  omega

/-- The fields of a word of shape `g x y n`. -/
theorem fields_xyn {op : Word} {g n : Nat} {x y : Reg} (hn : n < 16)
    (h : op.toNat = g * 4096 + x.val * 256 + y.val * 16 + n) :
    opGroup op = g ∧ opX op = x ∧ opY op = y ∧ opN op = n := by
  refine ⟨?_, opX_eq (by omega), opY_eq (by omega), ?_⟩
  · rw [opGroup]
    omega
  · rw [opN]
    omega

/-! ### Bytes and words -/

@[simp] theorem joinBytes_toNat (hi lo : Byte) : (joinBytes hi lo).toNat = hi.toNat * 256 + lo.toNat := by
  rw [joinBytes, ofNat16_toNat]
  omega

@[simp] theorem joinBytes_high_low (op : Word) : joinBytes (highByte op) (lowByte op) = op := by
  apply BitVec.eq_of_toNat_eq
  simp [highByte, lowByte]
  omega

@[simp] theorem wordBytes_length (op : Word) : (wordBytes op).length = 2 := rfl

/-- A word laid out in memory order and read back is decoded as itself. -/
theorem decodeBytes_wordBytes (op : Word) (rest : List Byte) :
    decodeBytes (wordBytes op ++ rest) = (decode op).map fun i => (i, rest) := by
  simp only [wordBytes, List.cons_append, List.nil_append, decodeBytes, joinBytes_high_low]
  cases decode op <;> rfl

/-- The host's interface to the decoder reads a 16-bit row as `decode` does. -/
theorem decodeTableWord_sixteen (w : Nat) : decodeTableWord 16 w = (decode (BitVec.ofNat 16 w)).toOption := by
  have h := decodeBytes_wordBytes (BitVec.ofNat 16 (w % 2 ^ 16)) []
  have hw : BitVec.ofNat 16 (w % 2 ^ 16) = BitVec.ofNat 16 w := by
    apply BitVec.eq_of_toNat_eq
    simp
  simp only [List.append_nil] at h
  rw [hw] at h
  simp only [decodeTableWord, hw, h]
  cases decode (BitVec.ofNat 16 w) <;> rfl

/-! ### Masks of the opcode table, as numbers -/

/-- A word under a mask of the high nibble and `k` low bits. -/
theorem toNat_and_mask (w : Word) (k : Nat) (hk : k ≤ 12) :
    (w &&& (0xF000#16 ||| BitVec.ofNat 16 (2 ^ k - 1))).toNat = w.toNat / 4096 * 4096 + w.toNat % 2 ^ k := by
  have hpow : 2 ^ k ≤ 2 ^ 12 := Nat.pow_le_pow_right (by decide) hk
  have hhi : (w &&& 0xF000#16).toNat = w.toNat / 4096 * 4096 := by
    have h : w &&& 0xF000#16 = (w >>> 12) <<< 12 := by
      ext i hi
      simp
      interval_cases i <;> simp
    rw [h]
    simp [BitVec.toNat_shiftLeft, Nat.shiftRight_eq_div_pow, Nat.shiftLeft_eq]
    omega
  have hlo : (w &&& BitVec.ofNat 16 (2 ^ k - 1)).toNat = w.toNat % 2 ^ k := by
    rw [BitVec.toNat_and, BitVec.toNat_ofNat, Nat.mod_eq_of_lt (by omega), Nat.and_two_pow_sub_one_eq_mod]
  have hdist : w &&& (0xF000#16 ||| BitVec.ofNat 16 (2 ^ k - 1)) =
      (w &&& 0xF000#16) ||| (w &&& BitVec.ofNat 16 (2 ^ k - 1)) := by
    ext i hi
    simp [Bool.and_or_distrib_left]
  have hlt : w.toNat % 2 ^ k < 2 ^ 12 := lt_of_lt_of_le (Nat.mod_lt _ (Nat.two_pow_pos k)) hpow
  have hshift : w.toNat / 4096 * 4096 = (w.toNat / 4096) <<< 12 := by rw [Nat.shiftLeft_eq]
  rw [hdist, BitVec.toNat_or, hhi, hlo, hshift, ← Nat.shiftLeft_add_eq_or_of_lt hlt]

theorem toNat_and_F000 (w : Word) : (w &&& 0xF000#16).toNat = w.toNat / 4096 * 4096 := by
  simpa [Nat.mod_one] using toNat_and_mask w 0 (by decide)

theorem toNat_and_F00F (w : Word) : (w &&& 0xF00F#16).toNat = w.toNat / 4096 * 4096 + w.toNat % 16 :=
  toNat_and_mask w 4 (by decide)

theorem toNat_and_F0FF (w : Word) : (w &&& 0xF0FF#16).toNat = w.toNat / 4096 * 4096 + w.toNat % 256 :=
  toNat_and_mask w 8 (by decide)

theorem and_FFFF (w : Word) : w &&& 0xFFFF#16 = w := by
  ext i hi
  simp
  interval_cases i <;> simp

theorem covers_iff (name : String) (m p op : Word) :
    OpcodeRow.covers ⟨name, m, p⟩ op = true ↔ (op &&& m).toNat = p.toNat := by
  simp only [OpcodeRow.covers, beq_iff_eq, BitVec.toNat_inj]

/-- A row with mask 0xF000 fixes the first nibble. -/
theorem covers_F000 (name : String) (p op : Word) (hp : p.toNat % 4096 = 0) :
    OpcodeRow.covers ⟨name, 0xF000, p⟩ op = true ↔ op.toNat / 4096 = p.toNat / 4096 := by
  rw [covers_iff, show (op &&& (0xF000 : Word)).toNat = _ from toNat_and_F000 op]
  omega

/-- A row with mask 0xF00F fixes the first and the last nibble. -/
theorem covers_F00F (name : String) (p op : Word) (hp : p.toNat % 4096 = p.toNat % 16) :
    OpcodeRow.covers ⟨name, 0xF00F, p⟩ op = true ↔
      op.toNat / 4096 = p.toNat / 4096 ∧ op.toNat % 16 = p.toNat % 16 := by
  rw [covers_iff, show (op &&& (0xF00F : Word)).toNat = _ from toNat_and_F00F op]
  omega

/-- A row with mask 0xF0FF fixes the first nibble and the low byte. -/
theorem covers_F0FF (name : String) (p op : Word) (hp : p.toNat % 4096 = p.toNat % 256) :
    OpcodeRow.covers ⟨name, 0xF0FF, p⟩ op = true ↔
      op.toNat / 4096 = p.toNat / 4096 ∧ op.toNat % 256 = p.toNat % 256 := by
  rw [covers_iff, show (op &&& (0xF0FF : Word)).toNat = _ from toNat_and_F0FF op]
  omega

/-- A row with mask 0xFFFF is one word. -/
theorem covers_FFFF (name : String) (p op : Word) :
    OpcodeRow.covers ⟨name, 0xFFFF, p⟩ op = true ↔ op.toNat = p.toNat := by
  rw [covers_iff, show op &&& (0xFFFF : Word) = op from and_FFFF op]

end Sys2Proof
end

