-- ==== Sys2Proof/Laws/State.lean ====
section
/-! SUPPORT. One lemma per field per update of the state, true by `rfl`, so that no proof unfolds a record update; and
what the updates do to the reads `reg`, `byte`, `pixel`. -/

namespace Sys2Proof.Machine

variable (s : State)

/-! ### `State.setReg` -/

@[simp] theorem State.setReg_v (x : Reg) (b : Byte) : (s.setReg x b).v = s.v.set x b := rfl
@[simp] theorem State.setReg_i (x : Reg) (b : Byte) : (s.setReg x b).i = s.i := rfl
@[simp] theorem State.setReg_pc (x : Reg) (b : Byte) : (s.setReg x b).pc = s.pc := rfl
@[simp] theorem State.setReg_sp (x : Reg) (b : Byte) : (s.setReg x b).sp = s.sp := rfl
@[simp] theorem State.setReg_stack (x : Reg) (b : Byte) : (s.setReg x b).stack = s.stack := rfl
@[simp] theorem State.setReg_dt (x : Reg) (b : Byte) : (s.setReg x b).dt = s.dt := rfl
@[simp] theorem State.setReg_st (x : Reg) (b : Byte) : (s.setReg x b).st = s.st := rfl
@[simp] theorem State.setReg_mem (x : Reg) (b : Byte) : (s.setReg x b).mem = s.mem := rfl
@[simp] theorem State.setReg_fb (x : Reg) (b : Byte) : (s.setReg x b).fb = s.fb := rfl
@[simp] theorem State.setReg_keys (x : Reg) (b : Byte) : (s.setReg x b).keys = s.keys := rfl
@[simp] theorem State.setReg_rnd (x : Reg) (b : Byte) : (s.setReg x b).rnd = s.rnd := rfl
@[simp] theorem State.setReg_draws (x : Reg) (b : Byte) : (s.setReg x b).draws = s.draws := rfl
@[simp] theorem State.setReg_schedule (x : Reg) (b : Byte) : (s.setReg x b).schedule = s.schedule := rfl

/-! ### `State.setPc` -/

@[simp] theorem State.setPc_v (a : Word) : (s.setPc a).v = s.v := rfl
@[simp] theorem State.setPc_i (a : Word) : (s.setPc a).i = s.i := rfl
@[simp] theorem State.setPc_pc (a : Word) : (s.setPc a).pc = a := rfl
@[simp] theorem State.setPc_sp (a : Word) : (s.setPc a).sp = s.sp := rfl
@[simp] theorem State.setPc_stack (a : Word) : (s.setPc a).stack = s.stack := rfl
@[simp] theorem State.setPc_dt (a : Word) : (s.setPc a).dt = s.dt := rfl
@[simp] theorem State.setPc_st (a : Word) : (s.setPc a).st = s.st := rfl
@[simp] theorem State.setPc_mem (a : Word) : (s.setPc a).mem = s.mem := rfl
@[simp] theorem State.setPc_fb (a : Word) : (s.setPc a).fb = s.fb := rfl
@[simp] theorem State.setPc_keys (a : Word) : (s.setPc a).keys = s.keys := rfl
@[simp] theorem State.setPc_rnd (a : Word) : (s.setPc a).rnd = s.rnd := rfl
@[simp] theorem State.setPc_draws (a : Word) : (s.setPc a).draws = s.draws := rfl
@[simp] theorem State.setPc_schedule (a : Word) : (s.setPc a).schedule = s.schedule := rfl

/-! ### `State.setI` -/

@[simp] theorem State.setI_v (a : Word) : (s.setI a).v = s.v := rfl
@[simp] theorem State.setI_i (a : Word) : (s.setI a).i = a := rfl
@[simp] theorem State.setI_pc (a : Word) : (s.setI a).pc = s.pc := rfl
@[simp] theorem State.setI_sp (a : Word) : (s.setI a).sp = s.sp := rfl
@[simp] theorem State.setI_stack (a : Word) : (s.setI a).stack = s.stack := rfl
@[simp] theorem State.setI_dt (a : Word) : (s.setI a).dt = s.dt := rfl
@[simp] theorem State.setI_st (a : Word) : (s.setI a).st = s.st := rfl
@[simp] theorem State.setI_mem (a : Word) : (s.setI a).mem = s.mem := rfl
@[simp] theorem State.setI_fb (a : Word) : (s.setI a).fb = s.fb := rfl
@[simp] theorem State.setI_keys (a : Word) : (s.setI a).keys = s.keys := rfl
@[simp] theorem State.setI_rnd (a : Word) : (s.setI a).rnd = s.rnd := rfl
@[simp] theorem State.setI_draws (a : Word) : (s.setI a).draws = s.draws := rfl
@[simp] theorem State.setI_schedule (a : Word) : (s.setI a).schedule = s.schedule := rfl

/-! ### `State.setDt` -/

@[simp] theorem State.setDt_v (b : Byte) : (s.setDt b).v = s.v := rfl
@[simp] theorem State.setDt_i (b : Byte) : (s.setDt b).i = s.i := rfl
@[simp] theorem State.setDt_pc (b : Byte) : (s.setDt b).pc = s.pc := rfl
@[simp] theorem State.setDt_sp (b : Byte) : (s.setDt b).sp = s.sp := rfl
@[simp] theorem State.setDt_stack (b : Byte) : (s.setDt b).stack = s.stack := rfl
@[simp] theorem State.setDt_dt (b : Byte) : (s.setDt b).dt = b := rfl
@[simp] theorem State.setDt_st (b : Byte) : (s.setDt b).st = s.st := rfl
@[simp] theorem State.setDt_mem (b : Byte) : (s.setDt b).mem = s.mem := rfl
@[simp] theorem State.setDt_fb (b : Byte) : (s.setDt b).fb = s.fb := rfl
@[simp] theorem State.setDt_keys (b : Byte) : (s.setDt b).keys = s.keys := rfl
@[simp] theorem State.setDt_rnd (b : Byte) : (s.setDt b).rnd = s.rnd := rfl
@[simp] theorem State.setDt_draws (b : Byte) : (s.setDt b).draws = s.draws := rfl
@[simp] theorem State.setDt_schedule (b : Byte) : (s.setDt b).schedule = s.schedule := rfl

/-! ### `State.setSt` -/

@[simp] theorem State.setSt_v (b : Byte) : (s.setSt b).v = s.v := rfl
@[simp] theorem State.setSt_i (b : Byte) : (s.setSt b).i = s.i := rfl
@[simp] theorem State.setSt_pc (b : Byte) : (s.setSt b).pc = s.pc := rfl
@[simp] theorem State.setSt_sp (b : Byte) : (s.setSt b).sp = s.sp := rfl
@[simp] theorem State.setSt_stack (b : Byte) : (s.setSt b).stack = s.stack := rfl
@[simp] theorem State.setSt_dt (b : Byte) : (s.setSt b).dt = s.dt := rfl
@[simp] theorem State.setSt_st (b : Byte) : (s.setSt b).st = b := rfl
@[simp] theorem State.setSt_mem (b : Byte) : (s.setSt b).mem = s.mem := rfl
@[simp] theorem State.setSt_fb (b : Byte) : (s.setSt b).fb = s.fb := rfl
@[simp] theorem State.setSt_keys (b : Byte) : (s.setSt b).keys = s.keys := rfl
@[simp] theorem State.setSt_rnd (b : Byte) : (s.setSt b).rnd = s.rnd := rfl
@[simp] theorem State.setSt_draws (b : Byte) : (s.setSt b).draws = s.draws := rfl
@[simp] theorem State.setSt_schedule (b : Byte) : (s.setSt b).schedule = s.schedule := rfl

/-! ### `State.store` -/

@[simp] theorem State.store_v (a : Nat) (bytes : List Byte) : (s.store a bytes).v = s.v := rfl
@[simp] theorem State.store_i (a : Nat) (bytes : List Byte) : (s.store a bytes).i = s.i := rfl
@[simp] theorem State.store_pc (a : Nat) (bytes : List Byte) : (s.store a bytes).pc = s.pc := rfl
@[simp] theorem State.store_sp (a : Nat) (bytes : List Byte) : (s.store a bytes).sp = s.sp := rfl
@[simp] theorem State.store_stack (a : Nat) (bytes : List Byte) : (s.store a bytes).stack = s.stack := rfl
@[simp] theorem State.store_dt (a : Nat) (bytes : List Byte) : (s.store a bytes).dt = s.dt := rfl
@[simp] theorem State.store_st (a : Nat) (bytes : List Byte) : (s.store a bytes).st = s.st := rfl
@[simp] theorem State.store_mem (a : Nat) (bytes : List Byte) : (s.store a bytes).mem = s.mem.writeBytes a bytes := rfl
@[simp] theorem State.store_fb (a : Nat) (bytes : List Byte) : (s.store a bytes).fb = s.fb := rfl
@[simp] theorem State.store_keys (a : Nat) (bytes : List Byte) : (s.store a bytes).keys = s.keys := rfl
@[simp] theorem State.store_rnd (a : Nat) (bytes : List Byte) : (s.store a bytes).rnd = s.rnd := rfl
@[simp] theorem State.store_draws (a : Nat) (bytes : List Byte) : (s.store a bytes).draws = s.draws := rfl
@[simp] theorem State.store_schedule (a : Nat) (bytes : List Byte) : (s.store a bytes).schedule = s.schedule := rfl

/-! ### `State.setFb` -/

@[simp] theorem State.setFb_v (fb : FrameBuffer) : (s.setFb fb).v = s.v := rfl
@[simp] theorem State.setFb_i (fb : FrameBuffer) : (s.setFb fb).i = s.i := rfl
@[simp] theorem State.setFb_pc (fb : FrameBuffer) : (s.setFb fb).pc = s.pc := rfl
@[simp] theorem State.setFb_sp (fb : FrameBuffer) : (s.setFb fb).sp = s.sp := rfl
@[simp] theorem State.setFb_stack (fb : FrameBuffer) : (s.setFb fb).stack = s.stack := rfl
@[simp] theorem State.setFb_dt (fb : FrameBuffer) : (s.setFb fb).dt = s.dt := rfl
@[simp] theorem State.setFb_st (fb : FrameBuffer) : (s.setFb fb).st = s.st := rfl
@[simp] theorem State.setFb_mem (fb : FrameBuffer) : (s.setFb fb).mem = s.mem := rfl
@[simp] theorem State.setFb_fb (fb : FrameBuffer) : (s.setFb fb).fb = fb := rfl
@[simp] theorem State.setFb_keys (fb : FrameBuffer) : (s.setFb fb).keys = s.keys := rfl
@[simp] theorem State.setFb_rnd (fb : FrameBuffer) : (s.setFb fb).rnd = s.rnd := rfl
@[simp] theorem State.setFb_draws (fb : FrameBuffer) : (s.setFb fb).draws = s.draws := rfl
@[simp] theorem State.setFb_schedule (fb : FrameBuffer) : (s.setFb fb).schedule = s.schedule := rfl

/-! ### `State.loadRegs` -/

@[simp] theorem State.loadRegs_i (x : Reg) : (s.loadRegs x).i = s.i := rfl
@[simp] theorem State.loadRegs_pc (x : Reg) : (s.loadRegs x).pc = s.pc := rfl
@[simp] theorem State.loadRegs_sp (x : Reg) : (s.loadRegs x).sp = s.sp := rfl
@[simp] theorem State.loadRegs_stack (x : Reg) : (s.loadRegs x).stack = s.stack := rfl
@[simp] theorem State.loadRegs_dt (x : Reg) : (s.loadRegs x).dt = s.dt := rfl
@[simp] theorem State.loadRegs_st (x : Reg) : (s.loadRegs x).st = s.st := rfl
@[simp] theorem State.loadRegs_mem (x : Reg) : (s.loadRegs x).mem = s.mem := rfl
@[simp] theorem State.loadRegs_fb (x : Reg) : (s.loadRegs x).fb = s.fb := rfl
@[simp] theorem State.loadRegs_keys (x : Reg) : (s.loadRegs x).keys = s.keys := rfl
@[simp] theorem State.loadRegs_rnd (x : Reg) : (s.loadRegs x).rnd = s.rnd := rfl
@[simp] theorem State.loadRegs_draws (x : Reg) : (s.loadRegs x).draws = s.draws := rfl
@[simp] theorem State.loadRegs_schedule (x : Reg) : (s.loadRegs x).schedule = s.schedule := rfl

/-! ### `State.present` -/

@[simp] theorem State.present_v (b : Byte) : (State.present b s).v = s.v := rfl
@[simp] theorem State.present_i (b : Byte) : (State.present b s).i = s.i := rfl
@[simp] theorem State.present_pc (b : Byte) : (State.present b s).pc = s.pc := rfl
@[simp] theorem State.present_sp (b : Byte) : (State.present b s).sp = s.sp := rfl
@[simp] theorem State.present_stack (b : Byte) : (State.present b s).stack = s.stack := rfl
@[simp] theorem State.present_dt (b : Byte) : (State.present b s).dt = s.dt := rfl
@[simp] theorem State.present_st (b : Byte) : (State.present b s).st = s.st := rfl
@[simp] theorem State.present_mem (b : Byte) : (State.present b s).mem = s.mem := rfl
@[simp] theorem State.present_fb (b : Byte) : (State.present b s).fb = s.fb := rfl
@[simp] theorem State.present_keys (b : Byte) : (State.present b s).keys = s.keys := rfl
@[simp] theorem State.present_rnd (b : Byte) : (State.present b s).rnd = b := rfl
@[simp] theorem State.present_draws (b : Byte) : (State.present b s).draws = s.draws + 1 := rfl
@[simp] theorem State.present_schedule (b : Byte) : (State.present b s).schedule = s.schedule := rfl

/-! ### `State.toReset` -/

@[simp] theorem State.toReset_v : (s.toReset).v = State.reset.v := rfl
@[simp] theorem State.toReset_i : (s.toReset).i = State.reset.i := rfl
@[simp] theorem State.toReset_pc : (s.toReset).pc = State.reset.pc := rfl
@[simp] theorem State.toReset_sp : (s.toReset).sp = State.reset.sp := rfl
@[simp] theorem State.toReset_stack : (s.toReset).stack = State.reset.stack := rfl
@[simp] theorem State.toReset_dt : (s.toReset).dt = State.reset.dt := rfl
@[simp] theorem State.toReset_st : (s.toReset).st = State.reset.st := rfl
@[simp] theorem State.toReset_mem : (s.toReset).mem = State.reset.mem := rfl
@[simp] theorem State.toReset_fb : (s.toReset).fb = State.reset.fb := rfl
@[simp] theorem State.toReset_keys : (s.toReset).keys = State.reset.keys := rfl
@[simp] theorem State.toReset_rnd : (s.toReset).rnd = s.rnd := rfl
@[simp] theorem State.toReset_draws : (s.toReset).draws = s.draws := rfl
@[simp] theorem State.toReset_schedule : (s.toReset).schedule = s.schedule := rfl

/-! ### The reads -/

theorem State.setReg_reg (x y : Reg) (b : Byte) : (s.setReg x b).reg y = if x = y then b else s.reg y := by
  simp [State.reg, Vector.getElem_set, Fin.ext_iff]

@[simp] theorem State.setReg_reg_self (x : Reg) (b : Byte) : (s.setReg x b).reg x = b := by
  simp [State.setReg_reg]

@[simp] theorem State.setReg_reg_ne {x y : Reg} (b : Byte) (h : x ≠ y) : (s.setReg x b).reg y = s.reg y := by
  simp [State.setReg_reg, h]

/-- What `Fx65` leaves in each register. -/
@[simp] theorem State.loadRegs_reg (x k : Reg) :
    (s.loadRegs x).reg k = if k.val ≤ x.val then s.byte (s.i.toNat + k.val) else s.reg k := by
  simp [State.reg, State.loadRegs]

@[simp] theorem State.setReg_byte (x : Reg) (b : Byte) (k : Nat) : (s.setReg x b).byte k = s.byte k := rfl
@[simp] theorem State.setReg_pixel (x : Reg) (b : Byte) (r : Fin 32) (c : Fin 64) : (s.setReg x b).pixel r c = s.pixel r c := rfl
@[simp] theorem State.setPc_reg (a : Word) (y : Reg) : (s.setPc a).reg y = s.reg y := rfl
@[simp] theorem State.setPc_byte (a : Word) (k : Nat) : (s.setPc a).byte k = s.byte k := rfl
@[simp] theorem State.setPc_pixel (a : Word) (r : Fin 32) (c : Fin 64) : (s.setPc a).pixel r c = s.pixel r c := rfl
@[simp] theorem State.setI_reg (a : Word) (y : Reg) : (s.setI a).reg y = s.reg y := rfl
@[simp] theorem State.setI_byte (a : Word) (k : Nat) : (s.setI a).byte k = s.byte k := rfl
@[simp] theorem State.setI_pixel (a : Word) (r : Fin 32) (c : Fin 64) : (s.setI a).pixel r c = s.pixel r c := rfl
@[simp] theorem State.setDt_reg (b : Byte) (y : Reg) : (s.setDt b).reg y = s.reg y := rfl
@[simp] theorem State.setDt_byte (b : Byte) (k : Nat) : (s.setDt b).byte k = s.byte k := rfl
@[simp] theorem State.setDt_pixel (b : Byte) (r : Fin 32) (c : Fin 64) : (s.setDt b).pixel r c = s.pixel r c := rfl
@[simp] theorem State.setSt_reg (b : Byte) (y : Reg) : (s.setSt b).reg y = s.reg y := rfl
@[simp] theorem State.setSt_byte (b : Byte) (k : Nat) : (s.setSt b).byte k = s.byte k := rfl
@[simp] theorem State.setSt_pixel (b : Byte) (r : Fin 32) (c : Fin 64) : (s.setSt b).pixel r c = s.pixel r c := rfl
@[simp] theorem State.store_reg (a : Nat) (bytes : List Byte) (y : Reg) : (s.store a bytes).reg y = s.reg y := rfl
@[simp] theorem State.store_pixel (a : Nat) (bytes : List Byte) (r : Fin 32) (c : Fin 64) : (s.store a bytes).pixel r c = s.pixel r c := rfl
@[simp] theorem State.setFb_reg (fb : FrameBuffer) (y : Reg) : (s.setFb fb).reg y = s.reg y := rfl
@[simp] theorem State.setFb_byte (fb : FrameBuffer) (k : Nat) : (s.setFb fb).byte k = s.byte k := rfl
@[simp] theorem State.loadRegs_byte (x : Reg) (k : Nat) : (s.loadRegs x).byte k = s.byte k := rfl
@[simp] theorem State.loadRegs_pixel (x : Reg) (r : Fin 32) (c : Fin 64) : (s.loadRegs x).pixel r c = s.pixel r c := rfl
@[simp] theorem State.present_reg (b : Byte) (y : Reg) : (State.present b s).reg y = s.reg y := rfl
@[simp] theorem State.present_byte (b : Byte) (k : Nat) : (State.present b s).byte k = s.byte k := rfl
@[simp] theorem State.present_pixel (b : Byte) (r : Fin 32) (c : Fin 64) : (State.present b s).pixel r c = s.pixel r c := rfl

end Sys2Proof.Machine
end

