-- ==== Sys2Proof/Laws/Memory.lean ====
section
/-! SUPPORT. Memory: what a read sees after a write, that every write keeps the canonical form, and that equal readings
are equal data. -/

namespace Sys2Proof.Machine

/-! ### The canonical form, cell by cell -/

@[simp] theorem Memory.wfFrom_nil (lo : Nat) : Memory.wfFrom lo [] = true := rfl

@[simp] theorem Memory.wfFrom_cons (lo k : Nat) (b : Byte) (m : Memory) :
    Memory.wfFrom lo ((k, b) :: m) = true ↔
      lo ≤ k ∧ k < 4096 ∧ b ≠ Memory.initial k ∧ Memory.wfFrom (k + 1) m = true := by
  simp [Memory.wfFrom, and_assoc]

theorem Memory.wfFrom_mono {m : Memory} {lo lo' : Nat} (h : lo' ≤ lo) (hm : Memory.wfFrom lo m = true) :
    Memory.wfFrom lo' m = true := by
  cases m with
  | nil => rfl
  | cons c m =>
    obtain ⟨k, b⟩ := c
    simp only [Memory.wfFrom_cons] at hm ⊢
    exact ⟨by omega, hm.2⟩

/-- Below the first listed address every byte is the reset contents. -/
theorem Memory.read_below {m : Memory} {lo a : Nat} (hm : Memory.wfFrom lo m = true) (h : a < lo) :
    Memory.read m a = Memory.initial a := by
  cases m with
  | nil => rfl
  | cons c m =>
    obtain ⟨k, b⟩ := c
    simp only [Memory.wfFrom_cons] at hm
    simp [Memory.read, show a < k by omega]

/-! ### Reading after writing -/

theorem Memory.read_write_same {m : Memory} {lo : Nat} (hm : Memory.wfFrom lo m = true) (a : Nat) (x : Byte) :
    Memory.read (Memory.write m a x) a = x := by
  induction m generalizing lo with
  | nil => by_cases hx : x = Memory.initial a <;> simp [Memory.write, Memory.read, hx]
  | cons c m ih =>
    obtain ⟨k, b⟩ := c
    simp only [Memory.wfFrom_cons] at hm
    obtain ⟨-, -, -, hm⟩ := hm
    by_cases h1 : a < k
    · by_cases hx : x = Memory.initial a <;> simp [Memory.write, Memory.read, h1, hx]
    · by_cases h2 : a = k
      · subst h2
        by_cases hx : x = Memory.initial a
        · simp [Memory.write, hx, Memory.read_below hm]
        · simp [Memory.write, Memory.read, hx]
      · simp [Memory.write, Memory.read, h1, h2, ih hm]

theorem Memory.read_write_ne {m : Memory} {lo : Nat} (hm : Memory.wfFrom lo m = true) {a b : Nat} (h : b ≠ a)
    (x : Byte) : Memory.read (Memory.write m a x) b = Memory.read m b := by
  induction m generalizing lo with
  | nil =>
    by_cases hx : x = Memory.initial a
    · simp [Memory.write, hx]
    · by_cases hb : b < a <;> simp [Memory.write, Memory.read, hx, hb, h]
  | cons c m ih =>
    obtain ⟨k, y⟩ := c
    simp only [Memory.wfFrom_cons] at hm
    obtain ⟨-, -, -, hm⟩ := hm
    by_cases h1 : a < k
    · by_cases hx : x = Memory.initial a
      · simp [Memory.write, h1, hx]
      · by_cases hb : b < a
        · simp [Memory.write, Memory.read, h1, hx, hb, show b < k by omega]
        · simp [Memory.write, Memory.read, h1, hx, hb, h]
    · by_cases h2 : a = k
      · subst h2
        by_cases hb : b < a
        · by_cases hx : x = Memory.initial a
          · simp [Memory.write, Memory.read, hx, hb, Memory.read_below hm (show b < a + 1 by omega)]
          · simp [Memory.write, Memory.read, hx, hb]
        · by_cases hx : x = Memory.initial a <;> simp [Memory.write, Memory.read, hx, hb, h]
      · by_cases hb : b < k
        · simp [Memory.write, Memory.read, h1, h2, hb]
        · by_cases hbk : b = k
          · simp [Memory.write, Memory.read, h1, h2, hbk]
          · simp [Memory.write, Memory.read, h1, h2, hb, hbk, ih hm]

/-- A write at an address that exists keeps the canonical form. -/
theorem Memory.wfFrom_write {m : Memory} {lo : Nat} (hm : Memory.wfFrom lo m = true) {a : Nat} (hlo : lo ≤ a)
    (ha : a < 4096) (x : Byte) : Memory.wfFrom lo (Memory.write m a x) = true := by
  induction m generalizing lo with
  | nil => by_cases hx : x = Memory.initial a <;> simp [Memory.write, hx, hlo, ha]
  | cons c m ih =>
    obtain ⟨k, b⟩ := c
    have hm' := hm
    simp only [Memory.wfFrom_cons] at hm
    obtain ⟨hk, hk', hb, hm⟩ := hm
    by_cases h1 : a < k
    · by_cases hx : x = Memory.initial a
      · simpa [Memory.write, h1, hx] using hm'
      · simp [Memory.write, h1, hx, hlo, ha, show a + 1 ≤ k by omega, hk', hb, hm]
    · by_cases h2 : a = k
      · subst h2
        by_cases hx : x = Memory.initial a
        · simpa [Memory.write, hx] using Memory.wfFrom_mono (by omega) hm
        · simp [Memory.write, hx, hlo, ha, hm]
      · simp [Memory.write, h1, h2, hk, hk', hb, ih hm (by omega : k + 1 ≤ a)]

theorem Memory.wf_write {m : Memory} (hm : m.wf = true) {a : Nat} (ha : a < 4096) (x : Byte) :
    (Memory.write m a x).wf = true :=
  Memory.wfFrom_write hm (Nat.zero_le a) ha x

/-! ### Consecutive bytes -/

/-- A store that ends inside memory keeps the canonical form. -/
theorem Memory.wf_writeBytes {m : Memory} (hm : m.wf = true) {a : Nat} {bytes : List Byte}
    (h : a + bytes.length ≤ 4096) : (Memory.writeBytes m a bytes).wf = true := by
  induction bytes generalizing a with
  | nil => exact hm
  | cons b bs ih =>
    simp only [List.length_cons] at h
    exact Memory.wf_write (ih (by omega)) (by omega) b

/-- What a store leaves at every address. -/
theorem Memory.read_writeBytes {m : Memory} (hm : m.wf = true) {a : Nat} {bytes : List Byte}
    (h : a + bytes.length ≤ 4096) (k : Nat) :
    Memory.read (Memory.writeBytes m a bytes) k =
      if hk : a ≤ k ∧ k < a + bytes.length then bytes[k - a]'(by omega) else Memory.read m k := by
  induction bytes generalizing a with
  | nil => simp [Memory.writeBytes, show ¬(a ≤ k ∧ k < a) by omega]
  | cons b bs ih =>
    simp only [List.length_cons] at h
    have hw : (Memory.writeBytes m (a + 1) bs).wf = true := Memory.wf_writeBytes hm (by omega)
    by_cases hka : k = a
    · subst hka
      simp [Memory.writeBytes, Memory.read_write_same hw]
    · rw [Memory.writeBytes, Memory.read_write_ne hw hka, ih (by omega)]
      by_cases hk : a + 1 ≤ k ∧ k < a + 1 + bs.length
      · have hk' : a ≤ k ∧ k < a + (b :: bs).length := by simp only [List.length_cons]; omega
        rw [dif_pos hk, dif_pos hk', List.getElem_cons, dif_neg (by omega)]
        congr 1
      · have hk' : ¬(a ≤ k ∧ k < a + (b :: bs).length) := by simp only [List.length_cons]; omega
        rw [dif_neg hk, dif_neg hk']

/-! ### Equal readings are equal data -/

theorem Memory.eq_of_wfFrom_read_eq {m m' : Memory} {lo : Nat} (hm : Memory.wfFrom lo m = true)
    (hm' : Memory.wfFrom lo m' = true) (h : ∀ a, Memory.read m a = Memory.read m' a) : m = m' := by
  induction m generalizing lo m' with
  | nil =>
    cases m' with
    | nil => rfl
    | cons c' t' =>
      obtain ⟨k', b'⟩ := c'
      simp only [Memory.wfFrom_cons] at hm'
      exact absurd (by simpa [Memory.read] using (h k').symm) hm'.2.2.1
  | cons c t ih =>
    obtain ⟨k, b⟩ := c
    simp only [Memory.wfFrom_cons] at hm
    obtain ⟨-, -, hb, ht⟩ := hm
    cases m' with
    | nil => exact absurd (by simpa [Memory.read] using h k) hb
    | cons c' t' =>
      obtain ⟨k', b'⟩ := c'
      simp only [Memory.wfFrom_cons] at hm'
      obtain ⟨-, -, hb', ht'⟩ := hm'
      have hk : k = k' := by
        rcases Nat.lt_trichotomy k k' with hlt | heq | hgt
        · exact absurd (by simpa [Memory.read, hlt] using h k) hb
        · exact heq
        · exact absurd (by simpa [Memory.read, hgt] using (h k').symm) hb'
      subst hk
      have hbb : b = b' := by simpa [Memory.read] using h k
      subst hbb
      rw [ih ht ht' fun a => ?_]
      by_cases ha : a < k + 1
      · rw [Memory.read_below ht ha, Memory.read_below ht' ha]
      · simpa [Memory.read, show ¬a < k by omega, show a ≠ k by omega] using h a

/-- Two canonical memories that read alike are the same data. -/
theorem Memory.ext {m m' : Memory} (hm : m.wf = true) (hm' : m'.wf = true)
    (h : ∀ a, Memory.read m a = Memory.read m' a) : m = m' :=
  Memory.eq_of_wfFrom_read_eq hm hm' h

/-! ### The same of a state's store -/

/-- What a store that ends inside memory leaves at every address. -/
theorem State.store_byte {s : State} (hs : s.mem.wf = true) {a : Nat} {bytes : List Byte}
    (h : a + bytes.length ≤ 4096) (k : Nat) :
    (s.store a bytes).byte k =
      if hk : a ≤ k ∧ k < a + bytes.length then bytes[k - a]'(by omega) else s.byte k :=
  Memory.read_writeBytes hs h k

/-- A stored byte is read back. -/
theorem State.store_byte_inside {s : State} (hs : s.mem.wf = true) {a : Nat} {bytes : List Byte}
    (h : a + bytes.length ≤ 4096) {k : Nat} {b : Byte} (hb : bytes[k]? = some b) :
    (s.store a bytes).byte (a + k) = b := by
  obtain ⟨hk, rfl⟩ := List.getElem?_eq_some_iff.1 hb
  rw [State.store_byte hs h, dif_pos (by omega)]
  simp only [Nat.add_sub_cancel_left]

/-- A store leaves every address outside the stored bytes alone. -/
theorem State.store_byte_outside {s : State} (hs : s.mem.wf = true) {a : Nat} {bytes : List Byte}
    (h : a + bytes.length ≤ 4096) {k : Nat} (hk : k < a ∨ a + bytes.length ≤ k) :
    (s.store a bytes).byte k = s.byte k := by
  rw [State.store_byte hs h, dif_neg (by omega)]

theorem State.reset_mem_wf : State.reset.mem.wf = true := rfl

end Sys2Proof.Machine
end

