-- ==== Sys2Proof/Laws/Ops.lean ====
section
/-! SUPPORT. One lemma for each shared operation that says once what it can do: skips, the call stack, fetch, raising a
fault, operands, flags, and the tick put together from them. -/

namespace Sys2Proof.Machine

/-! ### Skips -/

@[simp] theorem skipIf_true (s : State) : skipIf true s = s.setPc (s.pc + 2) := rfl

@[simp] theorem skipIf_false (s : State) : skipIf false s = s := rfl

theorem skipIf_eq (c : Bool) (s : State) : skipIf c s = s.setPc (if c then s.pc + 2 else s.pc) := by
  cases c <;> rfl

/-- A skip leaves `PC` or moves it by two. -/
theorem skipIf_pc (c : Bool) (s : State) : (skipIf c s).pc = s.pc ∨ (skipIf c s).pc = s.pc + 2 := by
  cases c <;> simp

/-! ### Call stack -/

/-- Everything a push can do. -/
theorem push_eq_some {s t : State} (h : push s = some t) :
    ∃ (st : Vector Word 16) (n : Fin 17), t = { s with stack := st, sp := n } ∧ s.sp.val < 16 ∧
      n.val = s.sp.val + 1 ∧ ∀ j : Fin 16, st[j] = if j.val = s.sp.val then s.pc else s.stack[j] := by
  unfold push at h
  split at h
  · rename_i hsp
    refine ⟨_, _, (Option.some.inj h).symm, hsp, rfl, fun j => ?_⟩
    simp [Vector.getElem_set, eq_comm]
  · cases h

theorem push_eq_none {s : State} : push s = none ↔ s.sp.val = 16 := by
  unfold push
  split <;> simp <;> omega

theorem push_isSome {s : State} (h : s.sp.val < 16) : ∃ t, push s = some t := by
  simp [push, h]

/-- Everything a pop can do. -/
theorem pop_eq_some {s t : State} (h : pop s = some t) :
    ∃ (a : Word) (n : Fin 17), t = { s with pc := a, sp := n } ∧ 0 < s.sp.val ∧ n.val + 1 = s.sp.val ∧
      s.stack[n.val]? = some a := by
  unfold pop at h
  split at h
  · rename_i hsp
    refine ⟨_, _, (Option.some.inj h).symm, hsp, by simp; omega, ?_⟩
    have hlt : s.sp.val - 1 < 16 := by omega
    simp [hlt]
  · cases h

theorem pop_eq_none {s : State} : pop s = none ↔ s.sp.val = 0 := by
  unfold pop
  split <;> simp <;> omega

theorem pop_isSome {s : State} (h : 0 < s.sp.val) : ∃ t, pop s = some t := by
  simp [pop, h]

/-! ### Faults -/

/-- A raised fault records the instruction's address and its opcode word. -/
theorem raise_eq (kind : Word → Word → Fault) (i : Instr) (s : State) :
    raise kind i s = .fault (kind (s.pc - 2) (encode i)) := rfl

/-! ### Fetch -/

theorem fetch_ok {s : State} (h : s.pc.toNat < 4095) :
    fetch s = .ok (s.wordAt s.pc.toNat, s.setPc (s.pc + 2)) := by
  simp [fetch, h]

theorem fetch_fault {s : State} (h : 4095 ≤ s.pc.toNat) : fetch s = .error (.programCounterOutOfBounds s.pc) := by
  simp [fetch, show ¬s.pc.toNat < 4095 by omega]

/-- The `PC` a successful fetch leaves, as a number. -/
theorem fetch_pc {s : State} (h : s.pc.toNat < 4095) : (s.pc + 2).toNat = s.pc.toNat + 2 := by
  simp [BitVec.toNat_add]
  omega

@[simp] theorem State.present_wordAt (b : Byte) (s : State) (a : Nat) :
    (State.present b s).wordAt a = s.wordAt a := rfl

/-! ### The tick -/

theorem tick_of_fetch {s : State} (b : Byte) (h : s.pc.toNat < 4095) :
    tick b s = execute (s.wordAt s.pc.toNat) ((State.present b s).setPc (s.pc + 2)) := by
  simp [tick, fetch_ok (s := State.present b s) h]

theorem tick_fetch_fault {s : State} (b : Byte) (h : 4095 ≤ s.pc.toNat) :
    tick b s = .fault (.programCounterOutOfBounds s.pc) := by
  simp [tick, fetch_fault (s := State.present b s) h]

theorem execute_unknown {op : Word} {e : DecodeError} (h : decode op = .error e) (s : State) :
    execute op s = .next (s, .okUnknownOpcode op) := by
  simp [execute, h]

theorem dropOutput_execute {op : Word} {i : Instr} (h : decode op = .ok i) (s : State) :
    dropOutput (execute op s) = exec i s := by
  simp only [execute, h]
  cases exec i s <;> rfl

/-- Everything the execution of a known word can do. -/
theorem execute_known {op : Word} {i : Instr} (h : decode op = .ok i) (s : State) :
    (∃ t, exec i s = .next t ∧ execute op s = .next (t, .ok)) ∨
      (∃ f, exec i s = .fault f ∧ execute op s = .fault f) ∨ ∃ r, exec i s = .refused r ∧ execute op s = .refused r := by
  simp only [execute, h]
  cases exec i s <;> simp

/-- A tick whose word is known and whose instruction completes. -/
theorem tick_next {s t : State} {i : Instr} (b : Byte) (h : s.pc.toNat < 4095)
    (hd : decode (s.wordAt s.pc.toNat) = .ok i) (he : exec i ((State.present b s).setPc (s.pc + 2)) = .next t) :
    tick b s = .next (t, .ok) := by
  simp only [tick_of_fetch b h, execute, hd, he]

/-- Everything a tick that completes can have done. -/
theorem tick_cases {b : Byte} {s t : State} {out : Output} (h : tick b s = .next (t, out)) :
    s.pc.toNat < 4095 ∧
      ((∃ e, decode (s.wordAt s.pc.toNat) = .error e ∧ t = (State.present b s).setPc (s.pc + 2) ∧
          out = .okUnknownOpcode (s.wordAt s.pc.toNat)) ∨
        ∃ i, decode (s.wordAt s.pc.toNat) = .ok i ∧ exec i ((State.present b s).setPc (s.pc + 2)) = .next t ∧
          out = .ok) := by
  by_cases hp : s.pc.toNat < 4095
  · refine ⟨hp, ?_⟩
    rw [tick_of_fetch b hp] at h
    cases hd : decode (s.wordAt s.pc.toNat) with
    | error e =>
      rw [execute_unknown hd] at h
      cases h
      exact Or.inl ⟨e, rfl, rfl, rfl⟩
    | ok i =>
      rcases execute_known hd ((State.present b s).setPc (s.pc + 2)) with ⟨t', h1, h2⟩ | ⟨f, h1, h2⟩ | ⟨r, h1, h2⟩ <;>
        rw [h2] at h <;> cases h
      exact Or.inr ⟨i, rfl, h1, rfl⟩
  · rw [tick_fetch_fault b (by omega)] at h
    cases h

/-! ### Operands and flags, as numbers -/

@[simp] theorem addWrap_toNat (a b : Byte) : (addWrap a b).toNat = (a.toNat + b.toNat) % 256 := by
  simp [addWrap]

@[simp] theorem subWrap_toNat (a b : Byte) : (subWrap a b).toNat = (a.toNat + 256 - b.toNat) % 256 := by
  simp [subWrap]

@[simp] theorem shiftRight1_toNat (a : Byte) : (shiftRight1 a).toNat = a.toNat / 2 := by
  simp [shiftRight1]
  omega

@[simp] theorem shiftLeft1_toNat (a : Byte) : (shiftLeft1 a).toNat = a.toNat * 2 % 256 := by
  simp [shiftLeft1]

@[simp] theorem addrOf_toNat (nnn : Addr12) : (addrOf nnn).toNat = nnn.toNat := by
  simp [addrOf]
  omega

@[simp] theorem jumpTarget_toNat (b : Byte) (nnn : Addr12) : (jumpTarget b nnn).toNat = b.toNat + nnn.toNat := by
  simp [jumpTarget]
  omega

@[simp] theorem indexSum_toNat (i : Word) (b : Byte) : (indexSum i b).toNat = (i.toNat + b.toNat) % 65536 := by
  simp [indexSum]

@[simp] theorem glyphAddress_toNat (b : Byte) : (glyphAddress b).toNat = b.toNat * 5 := by
  simp [glyphAddress, Config.glyphBytes]
  omega

theorem accessFits_iff (i : Word) (m : Nat) : accessFits i m = true ↔ i.toNat + m ≤ 4095 := by
  simp [accessFits]

theorem keyIndex_eq_some {b : Byte} {k : Fin 16} : keyIndex b = some k ↔ b.toNat = k.val := by
  unfold keyIndex
  split
  · simp [Fin.ext_iff]
  · simp
    omega

theorem keyIndex_eq_none {b : Byte} : keyIndex b = none ↔ 15 < b.toNat := by
  unfold keyIndex
  split <;> simp <;> omega

@[simp] theorem flagByte_toNat (b : Bool) : (flagByte b).toNat = if b then 1 else 0 := by
  cases b <;> rfl

/-- What the flag-writing order leaves in each register: the flag wins in `VF` (spec/10_state.md R13). -/
@[simp] theorem writeThenFlag_reg (x y : Reg) (a f : Byte) (s : State) :
    (writeThenFlag x a f s).reg y = if y = flagReg then f else if y = x then a else s.reg y := by
  simp only [writeThenFlag, State.setReg_reg]
  split <;> split <;> simp_all [eq_comm]

@[simp] theorem writeThenFlag_pc (x : Reg) (a f : Byte) (s : State) : (writeThenFlag x a f s).pc = s.pc := rfl

/-- The writes of a flag-setting instruction touch the register file only. -/
theorem writeThenFlag_eq (x : Reg) (a f : Byte) (s : State) :
    writeThenFlag x a f s = { s with v := (s.v.set x a).set flagReg f } := rfl

/-- The bytes `Fx55` stores: `x + 1` of them, byte `k` being `V[k]`. -/
@[simp] theorem State.regsUpTo_length (s : State) (x : Reg) : (s.regsUpTo x).length = x.val + 1 := by
  simp [State.regsUpTo]

theorem State.regsUpTo_getElem (s : State) (x k : Reg) (h : k.val ≤ x.val) :
    (s.regsUpTo x)[k.val]'(by simp; omega) = s.reg k := by
  simp [State.regsUpTo, State.reg]

@[simp] theorem bcdDigits_length (a : Byte) : (bcdDigits a).length = 3 := rfl

/-- A pressed key is in the list, and only a pressed key. -/
@[simp] theorem mem_pressedKeys (keys : Vector Bool 16) (k : Fin 16) : k ∈ pressedKeys keys ↔ keys[k] = true := by
  simp [pressedKeys]

theorem pressedKeys_eq_nil (keys : Vector Bool 16) : pressedKeys keys = [] ↔ ∀ k : Fin 16, keys[k] = false := by
  rw [List.eq_nil_iff_forall_not_mem]
  simp

/-- The head of the list is the lowest pressed key. -/
theorem pressedKeys_head {keys : Vector Bool 16} {k : Fin 16} (hk : keys[k] = true)
    (hlow : ∀ j : Fin 16, j < k → keys[j] = false) : (pressedKeys keys).head? = some k := by
  unfold pressedKeys
  rw [List.head?_filter, List.find?_eq_some_iff_getElem]
  refine ⟨hk, k.val, by simp, by simp, fun j hj => ?_⟩
  simp [hlow ⟨j, by omega⟩ (by simpa [Fin.lt_def] using hj)]

/-! ### Timers -/

@[simp] theorem countDown_toNat (b : Byte) : (countDown b).toNat = b.toNat - 1 := by
  unfold countDown
  split
  · rename_i h
    simp [h]
  · rename_i h
    have : b.toNat ≠ 0 := fun hz => h (BitVec.eq_of_toNat_eq hz)
    rw [BitVec.toNat_sub_of_le] <;> simp [BitVec.le_def]
    omega

end Sys2Proof.Machine
end

