-- ==== Sys2Proof/Laws/Frames.lean ====
section
/-! SUPPORT. The frame of each update: which part it writes, and that it keeps all the others. -/

namespace Sys2Proof.Machine

/-- A frame with fewer parts named says more. -/
theorem KeepsAllBut.mono {ps qs : List Part} {s t : State} (h : KeepsAllBut ps s t) (hpq : ∀ p ∈ ps, p ∈ qs) :
    KeepsAllBut qs s t := fun p hp => h p fun h' => hp (hpq p h')

theorem KeepsAllBut.refl (ps : List Part) (s : State) : KeepsAllBut ps s s := by
  intro p _
  cases p <;> simp [Part.same]

theorem KeepsAllBut.trans {ps : List Part} {s t u : State} (h : KeepsAllBut ps s t) (h' : KeepsAllBut ps t u) :
    KeepsAllBut ps s u := by
  intro p hp
  have h1 := h p hp
  have h2 := h' p hp
  cases p <;> simp_all [Part.same]

theorem keeps_setPc (a : Word) (s : State) : KeepsAllBut [] s (s.setPc a) := by
  intro p _
  cases p <;> simp [Part.same]

theorem keeps_skipIf (c : Bool) (s : State) : KeepsAllBut [] s (skipIf c s) := by
  rw [skipIf_eq]
  exact keeps_setPc _ s

theorem keeps_setI (a : Word) (s : State) : KeepsAllBut [.index] s (s.setI a) := by
  intro p hp
  cases p <;> simp_all [Part.same]

theorem keeps_setDt (b : Byte) (s : State) : KeepsAllBut [.delayTimer] s (s.setDt b) := by
  intro p hp
  cases p <;> simp_all [Part.same]

theorem keeps_setSt (b : Byte) (s : State) : KeepsAllBut [.soundTimer] s (s.setSt b) := by
  intro p hp
  cases p <;> simp_all [Part.same]

theorem keeps_setFb (fb : FrameBuffer) (s : State) : KeepsAllBut [.display] s (s.setFb fb) := by
  intro p hp
  cases p <;> simp_all [Part.same]

theorem keeps_store (a : Nat) (bytes : List Byte) (s : State) : KeepsAllBut [.memory] s (s.store a bytes) := by
  intro p hp
  cases p <;> simp_all [Part.same]

theorem keeps_setReg (x : Reg) (b : Byte) (s : State) : KeepsAllBut [.regs] s (s.setReg x b) := by
  intro p hp
  cases p <;> simp_all [Part.same]

theorem keeps_loadRegs (x : Reg) (s : State) : KeepsAllBut [.regs] s (s.loadRegs x) := by
  intro p hp
  cases p <;> simp_all [Part.same]

theorem keeps_writeThenFlag (x : Reg) (a f : Byte) (s : State) : KeepsAllBut [.regs] s (writeThenFlag x a f s) :=
  (keeps_setReg x a s).trans (keeps_setReg flagReg f _)

theorem keeps_present (b : Byte) (s : State) : KeepsAllBut [.inputs] s (State.present b s) := by
  intro p hp
  cases p <;> simp_all [Part.same]

theorem keeps_push {s t : State} (h : push s = some t) : KeepsAllBut [.callStack] s t := by
  obtain ⟨st, n, rfl, -⟩ := push_eq_some h
  intro p hp
  cases p <;> simp_all [Part.same, State.reg, State.byte, State.pixel]

theorem keeps_pop {s t : State} (h : pop s = some t) : KeepsAllBut [.callStack] s t := by
  obtain ⟨a, n, rfl, -⟩ := pop_eq_some h
  intro p hp
  cases p <;> simp_all [Part.same, State.reg, State.byte, State.pixel]

theorem keepsRegs_setReg (x : Reg) (b : Byte) (s : State) : KeepsRegsBut [x] s (s.setReg x b) := by
  intro r hr
  simp only [List.mem_singleton] at hr
  exact State.setReg_reg_ne s b (Ne.symm hr)

theorem keepsRegs_writeThenFlag (x : Reg) (a f : Byte) (s : State) :
    KeepsRegsBut [x, flagReg] s (writeThenFlag x a f s) := by
  intro r hr
  simp only [List.mem_cons, List.not_mem_nil, or_false, not_or] at hr
  simp [hr.1, hr.2]

end Sys2Proof.Machine
end

