-- ==== Sys2Proof/Laws/Display.lean ====
section
/-! SUPPORT. The pixel-blit engine: what inverting one pixel does, and what a fold of inversions at places that are
pairwise different does. -/

namespace Sys2Proof.Machine

/-- Everything inverting one pixel does. -/
theorem invertPixel_pixel (r r' : Fin 32) (c c' : Fin 64) (d : Blit) :
    ((invertPixel r c d).1[r'])[c'] = if r' = r ∧ c' = c then !(d.1[r])[c] else (d.1[r'])[c'] := by
  by_cases hr : r' = r
  · subst hr
    by_cases hc : c' = c
    · subst hc
      simp [invertPixel]
    · simp [invertPixel, hc, Fin.val_inj, Ne.symm hc]
  · simp [invertPixel, hr, Fin.val_inj, Ne.symm hr]

@[simp] theorem invertPixel_collision (r : Fin 32) (c : Fin 64) (d : Blit) :
    (invertPixel r c d).2 = (d.2 || (d.1[r])[c]) := rfl

@[simp] theorem setFb_blank_pixel (s : State) (r : Fin 32) (c : Fin 64) : (s.setFb blankFb).pixel r c = false := by
  simp [State.pixel, blankFb]

/-- Inverting the pixels of a list of places, in order. -/
def invertAll (ps : List (Fin 32 × Fin 64)) (d : Blit) : Blit := ps.foldl (fun d p => invertPixel p.1 p.2 d) d

/-- Inverting pairwise different places inverts each of them once, and collides when one of them was set. -/
theorem invertAll_spec {ps : List (Fin 32 × Fin 64)} (h : ps.Nodup) (d : Blit) :
    (∀ r c, ((invertAll ps d).1[r])[c] = if (r, c) ∈ ps then !(d.1[r])[c] else (d.1[r])[c]) ∧
      ((invertAll ps d).2 = true ↔ d.2 = true ∨ ∃ p ∈ ps, (d.1[p.1])[p.2] = true) := by
  induction ps generalizing d with
  | nil => simp [invertAll]
  | cons p ps ih =>
    obtain ⟨hp, hps⟩ := List.nodup_cons.1 h
    obtain ⟨ih1, ih2⟩ := ih hps (invertPixel p.1 p.2 d)
    have hstep : invertAll (p :: ps) d = invertAll ps (invertPixel p.1 p.2 d) := rfl
    rw [hstep]
    refine ⟨fun r c => ?_, ?_⟩
    · rw [ih1, invertPixel_pixel]
      by_cases hrc : (r, c) = p
      · subst hrc
        simp [hp]
      · have : ¬(r = p.1 ∧ c = p.2) := fun h' => hrc (Prod.ext h'.1 h'.2)
        simp [this, hrc]
    · rw [ih2, invertPixel_collision]
      have hother : ∀ q ∈ ps, ((invertPixel p.1 p.2 d).1[q.1])[q.2] = (d.1[q.1])[q.2] := by
        intro q hq
        rw [invertPixel_pixel, if_neg]
        rintro ⟨h1, h2⟩
        exact hp (by rwa [← Prod.ext h1 h2])
      constructor
      · rintro (h' | ⟨q, hq, hv⟩)
        · rcases Bool.or_eq_true_iff.1 h' with h' | h'
          · exact Or.inl h'
          · exact Or.inr ⟨p, List.mem_cons_self, h'⟩
        · exact Or.inr ⟨q, List.mem_cons_of_mem _ hq, by rwa [hother q hq] at hv⟩
      · rintro (h' | ⟨q, hq, hv⟩)
        · simp [h']
        · rcases List.mem_cons.1 hq with rfl | hq
          · exact Or.inl (Bool.or_eq_true_iff.2 (Or.inr hv))
          · exact Or.inr ⟨q, hq, by rwa [hother q hq]⟩

/-- The places one sprite row touches, in order. -/
def rowPlaces (vx vy : Byte) (row : Nat) (b : Byte) : List (Fin 32 × Fin 64) :=
  ((List.range 8).filter fun col => spriteBit b col).map fun col => (pixelRow vy row, pixelCol vx col)

/-- The places a sprite touches, row by row. -/
def spritePlaces (mem : Memory) (i : Nat) (vx vy : Byte) (n : Nat) : List (Fin 32 × Fin 64) :=
  (List.range n).flatMap fun row => rowPlaces vx vy row (mem.read (i + row))

theorem blitRow_eq_invertAll (vx vy : Byte) (row : Nat) (b : Byte) (d : Blit) :
    blitRow vx vy row b d = invertAll (rowPlaces vx vy row b) d := by
  simp only [blitRow, invertAll, rowPlaces, List.foldl_map, List.foldl_filter]

/-- The engine is a fold of inversions over the sprite's places. -/
theorem blit_eq_invertAll (mem : Memory) (i : Nat) (vx vy : Byte) (n : Nat) (d : Blit) :
    blit mem i vx vy n d = invertAll (spritePlaces mem i vx vy n) d := by
  simp only [blit, invertAll, spritePlaces, List.foldl_flatMap]
  congr 1
  funext d row
  exact blitRow_eq_invertAll vx vy row _ d

theorem mem_spritePlaces {mem : Memory} {i : Nat} {vx vy : Byte} {n : Nat} {r : Fin 32} {c : Fin 64} :
    (r, c) ∈ spritePlaces mem i vx vy n ↔
      ∃ row < n, ∃ col < 8, spriteBit (mem.read (i + row)) col = true ∧ pixelRow vy row = r ∧ pixelCol vx col = c := by
  simp [spritePlaces, rowPlaces, and_assoc]

/-- No two sprite bits of one instruction land on the same pixel (spec/44_display.md R163). -/
theorem spritePlaces_nodup (mem : Memory) (i : Nat) (vx vy : Byte) {n : Nat} (hn : n ≤ 15) :
    (spritePlaces mem i vx vy n).Nodup := by
  refine List.nodup_flatMap.2 ⟨fun row _ => ?_, ?_⟩
  · refine List.Nodup.map_on (fun a ha b hb hab => ?_) (List.Nodup.filter _ List.nodup_range)
    have ha' := (List.mem_filter.1 ha).1
    have hb' := (List.mem_filter.1 hb).1
    simp only [List.mem_range] at ha' hb'
    have := congrArg Fin.val (Prod.ext_iff.1 hab).2
    simp [pixelCol, Fin.ofNat] at this
    omega
  · refine List.Pairwise.imp_of_mem ?_ List.nodup_range
    intro a b ha hb hab
    simp only [List.mem_range] at ha hb
    intro p hpa hpb
    obtain ⟨_, -, rfl⟩ := List.mem_map.1 hpa
    obtain ⟨_, -, hb'⟩ := List.mem_map.1 hpb
    have := congrArg Fin.val (Prod.ext_iff.1 hb').1
    simp [pixelRow, Fin.ofNat] at this
    omega

theorem spriteFits_iff (i : Word) (n : Nat) : spriteFits i n = true ↔ n = 0 ∨ i.toNat + n - 1 ≤ 4095 := by
  simp [spriteFits, accessFits_iff]
  omega

end Sys2Proof.Machine
end

