-- ==== Sys2Proof/Laws/PerInstr.lean ====
section
/-! SUPPORT. The per-instruction families of LAWS.json. -/

namespace Sys2Proof.Laws.EncodeFixesItsRow

/-- The fixed bits of an instruction's word are those of its row of the opcode table (spec/30_encoding.md R64). -/
def Statement (i : Instr) : Prop := ∃ row ∈ opcodeTable, row.mnemonic = i.mnemonic ∧ row.covers (encode i) = true

theorem nop : Statement (.nop) :=
  ⟨⟨"NOP", 0xFFFF, 0x0000⟩, by simp [opcodeTable, opcodeRowsLow, opcodeRowsHigh], rfl,
    (covers_FFFF _ _ _).2 (by simp [encodeNat])⟩

theorem cls : Statement (.cls) :=
  ⟨⟨"CLS", 0xFFFF, 0x00E0⟩, by simp [opcodeTable, opcodeRowsLow, opcodeRowsHigh], rfl,
    (covers_FFFF _ _ _).2 (by simp [encodeNat])⟩

theorem ret : Statement (.ret) :=
  ⟨⟨"RET", 0xFFFF, 0x00EE⟩, by simp [opcodeTable, opcodeRowsLow, opcodeRowsHigh], rfl,
    (covers_FFFF _ _ _).2 (by simp [encodeNat])⟩

theorem jp (nnn : Addr12) : Statement (.jp nnn) :=
  ⟨⟨"JP_nnn", 0xF000, 0x1000⟩, by simp [opcodeTable, opcodeRowsLow, opcodeRowsHigh], rfl,
    (covers_F000 _ _ _ rfl).2 (by simp [encodeNat]; omega)⟩

theorem call (nnn : Addr12) : Statement (.call nnn) :=
  ⟨⟨"CALL_nnn", 0xF000, 0x2000⟩, by simp [opcodeTable, opcodeRowsLow, opcodeRowsHigh], rfl,
    (covers_F000 _ _ _ rfl).2 (by simp [encodeNat]; omega)⟩

theorem seImm (x : Reg) (nn : Byte) : Statement (.seImm x nn) :=
  ⟨⟨"SE_Vx__nn", 0xF000, 0x3000⟩, by simp [opcodeTable, opcodeRowsLow, opcodeRowsHigh], rfl,
    (covers_F000 _ _ _ rfl).2 (by simp [encodeNat]; omega)⟩

theorem sneImm (x : Reg) (nn : Byte) : Statement (.sneImm x nn) :=
  ⟨⟨"SNE_Vx__nn", 0xF000, 0x4000⟩, by simp [opcodeTable, opcodeRowsLow, opcodeRowsHigh], rfl,
    (covers_F000 _ _ _ rfl).2 (by simp [encodeNat]; omega)⟩

theorem seReg (x y : Reg) : Statement (.seReg x y) :=
  ⟨⟨"SE_Vx__Vy", 0xF00F, 0x5000⟩, by simp [opcodeTable, opcodeRowsLow, opcodeRowsHigh], rfl,
    (covers_F00F _ _ _ rfl).2 (by simp [encodeNat, fieldsXY]; omega)⟩

theorem sneReg (x y : Reg) : Statement (.sneReg x y) :=
  ⟨⟨"SNE_Vx__Vy", 0xF00F, 0x9000⟩, by simp [opcodeTable, opcodeRowsLow, opcodeRowsHigh], rfl,
    (covers_F00F _ _ _ rfl).2 (by simp [encodeNat, fieldsXY]; omega)⟩

theorem ldImm (x : Reg) (nn : Byte) : Statement (.ldImm x nn) :=
  ⟨⟨"LD_Vx__nn", 0xF000, 0x6000⟩, by simp [opcodeTable, opcodeRowsLow, opcodeRowsHigh], rfl,
    (covers_F000 _ _ _ rfl).2 (by simp [encodeNat]; omega)⟩

theorem addImm (x : Reg) (nn : Byte) : Statement (.addImm x nn) :=
  ⟨⟨"ADD_Vx__nn", 0xF000, 0x7000⟩, by simp [opcodeTable, opcodeRowsLow, opcodeRowsHigh], rfl,
    (covers_F000 _ _ _ rfl).2 (by simp [encodeNat]; omega)⟩

theorem ldReg (x y : Reg) : Statement (.ldReg x y) :=
  ⟨⟨"LD_Vx__Vy", 0xF00F, 0x8000⟩, by simp [opcodeTable, opcodeRowsLow, opcodeRowsHigh], rfl,
    (covers_F00F _ _ _ rfl).2 (by simp [encodeNat, fieldsXY]; omega)⟩

theorem orReg (x y : Reg) : Statement (.orReg x y) :=
  ⟨⟨"OR_Vx__Vy", 0xF00F, 0x8001⟩, by simp [opcodeTable, opcodeRowsLow, opcodeRowsHigh], rfl,
    (covers_F00F _ _ _ rfl).2 (by simp [encodeNat, fieldsXY]; omega)⟩

theorem andReg (x y : Reg) : Statement (.andReg x y) :=
  ⟨⟨"AND_Vx__Vy", 0xF00F, 0x8002⟩, by simp [opcodeTable, opcodeRowsLow, opcodeRowsHigh], rfl,
    (covers_F00F _ _ _ rfl).2 (by simp [encodeNat, fieldsXY]; omega)⟩

theorem xorReg (x y : Reg) : Statement (.xorReg x y) :=
  ⟨⟨"XOR_Vx__Vy", 0xF00F, 0x8003⟩, by simp [opcodeTable, opcodeRowsLow, opcodeRowsHigh], rfl,
    (covers_F00F _ _ _ rfl).2 (by simp [encodeNat, fieldsXY]; omega)⟩

theorem addReg (x y : Reg) : Statement (.addReg x y) :=
  ⟨⟨"ADD_Vx__Vy", 0xF00F, 0x8004⟩, by simp [opcodeTable, opcodeRowsLow, opcodeRowsHigh], rfl,
    (covers_F00F _ _ _ rfl).2 (by simp [encodeNat, fieldsXY]; omega)⟩

theorem subReg (x y : Reg) : Statement (.subReg x y) :=
  ⟨⟨"SUB_Vx__Vy", 0xF00F, 0x8005⟩, by simp [opcodeTable, opcodeRowsLow, opcodeRowsHigh], rfl,
    (covers_F00F _ _ _ rfl).2 (by simp [encodeNat, fieldsXY]; omega)⟩

theorem shr (x y : Reg) : Statement (.shr x y) :=
  ⟨⟨"SHR_Vx", 0xF00F, 0x8006⟩, by simp [opcodeTable, opcodeRowsLow, opcodeRowsHigh], rfl,
    (covers_F00F _ _ _ rfl).2 (by simp [encodeNat, fieldsXY]; omega)⟩

theorem subnReg (x y : Reg) : Statement (.subnReg x y) :=
  ⟨⟨"SUBN_Vx__Vy", 0xF00F, 0x8007⟩, by simp [opcodeTable, opcodeRowsLow, opcodeRowsHigh], rfl,
    (covers_F00F _ _ _ rfl).2 (by simp [encodeNat, fieldsXY]; omega)⟩

theorem shl (x y : Reg) : Statement (.shl x y) :=
  ⟨⟨"SHL_Vx", 0xF00F, 0x800E⟩, by simp [opcodeTable, opcodeRowsLow, opcodeRowsHigh], rfl,
    (covers_F00F _ _ _ rfl).2 (by simp [encodeNat, fieldsXY]; omega)⟩

theorem ldI (nnn : Addr12) : Statement (.ldI nnn) :=
  ⟨⟨"LD_I__nnn", 0xF000, 0xA000⟩, by simp [opcodeTable, opcodeRowsLow, opcodeRowsHigh], rfl,
    (covers_F000 _ _ _ rfl).2 (by simp [encodeNat]; omega)⟩

theorem jpV0 (nnn : Addr12) : Statement (.jpV0 nnn) :=
  ⟨⟨"JP_V0__nnn", 0xF000, 0xB000⟩, by simp [opcodeTable, opcodeRowsLow, opcodeRowsHigh], rfl,
    (covers_F000 _ _ _ rfl).2 (by simp [encodeNat]; omega)⟩

theorem rnd (x : Reg) (nn : Byte) : Statement (.rnd x nn) :=
  ⟨⟨"RND_Vx__nn", 0xF000, 0xC000⟩, by simp [opcodeTable, opcodeRowsLow, opcodeRowsHigh], rfl,
    (covers_F000 _ _ _ rfl).2 (by simp [encodeNat]; omega)⟩

theorem drw (x y : Reg) (n : Nat) : Statement (.drw x y n) :=
  ⟨⟨"DRW_Vx__Vy__n", 0xF000, 0xD000⟩, by simp [opcodeTable, opcodeRowsLow, opcodeRowsHigh], rfl,
    (covers_F000 _ _ _ rfl).2 (by simp [encodeNat, fieldsXY]; omega)⟩

theorem skp (x : Reg) : Statement (.skp x) :=
  ⟨⟨"SKP_Vx", 0xF0FF, 0xE09E⟩, by simp [opcodeTable, opcodeRowsLow, opcodeRowsHigh], rfl,
    (covers_F0FF _ _ _ rfl).2 (by simp [encodeNat]; omega)⟩

theorem sknp (x : Reg) : Statement (.sknp x) :=
  ⟨⟨"SKNP_Vx", 0xF0FF, 0xE0A1⟩, by simp [opcodeTable, opcodeRowsLow, opcodeRowsHigh], rfl,
    (covers_F0FF _ _ _ rfl).2 (by simp [encodeNat]; omega)⟩

theorem ldVxDT (x : Reg) : Statement (.ldVxDT x) :=
  ⟨⟨"LD_Vx__DT", 0xF0FF, 0xF007⟩, by simp [opcodeTable, opcodeRowsLow, opcodeRowsHigh], rfl,
    (covers_F0FF _ _ _ rfl).2 (by simp [encodeNat]; omega)⟩

theorem ldVxK (x : Reg) : Statement (.ldVxK x) :=
  ⟨⟨"LD_Vx__K", 0xF0FF, 0xF00A⟩, by simp [opcodeTable, opcodeRowsLow, opcodeRowsHigh], rfl,
    (covers_F0FF _ _ _ rfl).2 (by simp [encodeNat]; omega)⟩

theorem ldDTVx (x : Reg) : Statement (.ldDTVx x) :=
  ⟨⟨"LD_DT__Vx", 0xF0FF, 0xF015⟩, by simp [opcodeTable, opcodeRowsLow, opcodeRowsHigh], rfl,
    (covers_F0FF _ _ _ rfl).2 (by simp [encodeNat]; omega)⟩

theorem ldSTVx (x : Reg) : Statement (.ldSTVx x) :=
  ⟨⟨"LD_ST__Vx", 0xF0FF, 0xF018⟩, by simp [opcodeTable, opcodeRowsLow, opcodeRowsHigh], rfl,
    (covers_F0FF _ _ _ rfl).2 (by simp [encodeNat]; omega)⟩

theorem addI (x : Reg) : Statement (.addI x) :=
  ⟨⟨"ADD_I__Vx", 0xF0FF, 0xF01E⟩, by simp [opcodeTable, opcodeRowsLow, opcodeRowsHigh], rfl,
    (covers_F0FF _ _ _ rfl).2 (by simp [encodeNat]; omega)⟩

theorem ldF (x : Reg) : Statement (.ldF x) :=
  ⟨⟨"LD_F__Vx", 0xF0FF, 0xF029⟩, by simp [opcodeTable, opcodeRowsLow, opcodeRowsHigh], rfl,
    (covers_F0FF _ _ _ rfl).2 (by simp [encodeNat]; omega)⟩

theorem ldB (x : Reg) : Statement (.ldB x) :=
  ⟨⟨"LD_B__Vx", 0xF0FF, 0xF033⟩, by simp [opcodeTable, opcodeRowsLow, opcodeRowsHigh], rfl,
    (covers_F0FF _ _ _ rfl).2 (by simp [encodeNat]; omega)⟩

theorem storeRegs (x : Reg) : Statement (.storeRegs x) :=
  ⟨⟨"LD__I___Vx", 0xF0FF, 0xF055⟩, by simp [opcodeTable, opcodeRowsLow, opcodeRowsHigh], rfl,
    (covers_F0FF _ _ _ rfl).2 (by simp [encodeNat]; omega)⟩

theorem loadRegs (x : Reg) : Statement (.loadRegs x) :=
  ⟨⟨"LD_Vx___I", 0xF0FF, 0xF065⟩, by simp [opcodeTable, opcodeRowsLow, opcodeRowsHigh], rfl,
    (covers_F0FF _ _ _ rfl).2 (by simp [encodeNat]; omega)⟩

end Sys2Proof.Laws.EncodeFixesItsRow
end

