-- ==== Sys2Proof/Tests/Slice0.lean ====
section
/-! SUPPORT. Tests: words written out from the spec's encodings, one step of each instruction with the expected values of
spec/95_test_vectors.md (each test names its vector there), the host operations, and a witness for the hypotheses of each
statement. -/

namespace Sys2Proof.Machine.Tests

/-! ### Helpers -/

/-- The reset state with a word at the program base and one tick, with the byte `rnd`, scheduled. -/
def start (op : Word) (rnd : Byte := 0) : State :=
  { State.reset.store 512 (wordBytes op) with schedule := [.tick rnd] }

/-- The same with `V[x] = b`. -/
def start1 (op : Word) (x : Reg) (b : Byte) : State := (start op).setReg x b

/-- The same with two registers set. -/
def start2 (op : Word) (x : Reg) (b : Byte) (y : Reg) (c : Byte) : State := ((start op).setReg x b).setReg y c

/-- The step completes and the next state passes the check. -/
def next (s : State) (check : State → Bool) : Bool :=
  match step s with
  | .next t => check t
  | _ => false

/-- The fault the step ends in. -/
def fault (s : State) : Option Fault :=
  match step s with
  | .fault f => some f
  | _ => none

/-- The output of a host operation that completes. -/
def output (op : HostOp) (s : State) : Option Output :=
  match perform op s with
  | .next (_, out) => some out
  | _ => none

/-- A state with `V[x] = b` and `PC = 0x200`, for witnesses of a single clause. -/
def withReg (x : Reg) (b : Byte) : State := State.reset.setReg x b

/-- A state with `I = a`. -/
def withI (a : Word) : State := State.reset.setI a

/-- A state with the keys in the list down. -/
def withKeys (ks : List (Fin 16)) : State := { State.reset with keys := Vector.ofFn fun k => ks.contains k }

/-- A state with one pixel set. -/
def withPixel (s : State) (r : Fin 32) (c : Fin 64) : State := { s with fb := s.fb.set r (s.fb[r].set c true) }

/-! ### WellFormed refuses an ill-formed term -/

theorem test_wellFormed_refuses_sixteen_rows : Instr.wellFormed (.drw 0 0 16) = false := by decide

theorem test_wellFormed_admits_fifteen_rows : Instr.wellFormed (.drw 0 0 15) = true := by decide

/-! ### Decoding: every row of spec/30_encoding.md R64, its word written out from the row's pattern and fields -/

theorem test_decode_nop : decode 0x0000#16 = .ok .nop := by decide
theorem test_decode_cls : decode 0x00E0#16 = .ok .cls := by decide
theorem test_decode_ret : decode 0x00EE#16 = .ok .ret := by decide
theorem test_decode_jp : decode 0x1ABC#16 = .ok (.jp 0xABC) := by decide
theorem test_decode_call : decode 0x2DEF#16 = .ok (.call 0xDEF) := by decide
theorem test_decode_seImm : decode 0x3A5C#16 = .ok (.seImm 10 0x5C) := by decide
theorem test_decode_sneImm : decode 0x4B6D#16 = .ok (.sneImm 11 0x6D) := by decide
theorem test_decode_seReg : decode 0x5AB0#16 = .ok (.seReg 10 11) := by decide
theorem test_decode_sneReg : decode 0x9CD0#16 = .ok (.sneReg 12 13) := by decide
theorem test_decode_ldImm : decode 0x6F80#16 = .ok (.ldImm 15 0x80) := by decide
theorem test_decode_addImm : decode 0x7E01#16 = .ok (.addImm 14 0x01) := by decide
theorem test_decode_ldReg : decode 0x8120#16 = .ok (.ldReg 1 2) := by decide
theorem test_decode_orReg : decode 0x8231#16 = .ok (.orReg 2 3) := by decide
theorem test_decode_andReg : decode 0x8342#16 = .ok (.andReg 3 4) := by decide
theorem test_decode_xorReg : decode 0x8453#16 = .ok (.xorReg 4 5) := by decide
theorem test_decode_addReg : decode 0x8564#16 = .ok (.addReg 5 6) := by decide
theorem test_decode_subReg : decode 0x8675#16 = .ok (.subReg 6 7) := by decide
theorem test_decode_shr : decode 0x8786#16 = .ok (.shr 7 8) := by decide
theorem test_decode_subnReg : decode 0x8897#16 = .ok (.subnReg 8 9) := by decide
theorem test_decode_shl : decode 0x89AE#16 = .ok (.shl 9 10) := by decide
theorem test_decode_ldI : decode 0xA123#16 = .ok (.ldI 0x123) := by decide
theorem test_decode_jpV0 : decode 0xB456#16 = .ok (.jpV0 0x456) := by decide
theorem test_decode_rnd : decode 0xC70F#16 = .ok (.rnd 7 0x0F) := by decide
theorem test_decode_drw : decode 0xD12F#16 = .ok (.drw 1 2 15) := by decide
theorem test_decode_skp : decode 0xE39E#16 = .ok (.skp 3) := by decide
theorem test_decode_sknp : decode 0xE4A1#16 = .ok (.sknp 4) := by decide
theorem test_decode_ldVxDT : decode 0xF507#16 = .ok (.ldVxDT 5) := by decide
theorem test_decode_ldVxK : decode 0xF60A#16 = .ok (.ldVxK 6) := by decide
theorem test_decode_ldDTVx : decode 0xF715#16 = .ok (.ldDTVx 7) := by decide
theorem test_decode_ldSTVx : decode 0xF818#16 = .ok (.ldSTVx 8) := by decide
theorem test_decode_addI : decode 0xF91E#16 = .ok (.addI 9) := by decide
theorem test_decode_ldF : decode 0xFA29#16 = .ok (.ldF 10) := by decide
theorem test_decode_ldB : decode 0xFB33#16 = .ok (.ldB 11) := by decide
theorem test_decode_storeRegs : decode 0xFC55#16 = .ok (.storeRegs 12) := by decide
theorem test_decode_loadRegs : decode 0xFD65#16 = .ok (.loadRegs 13) := by decide

/-- Unknown words of each list of R68. -/
theorem test_decode_unknown_0nnn : decode 0x0123#16 = .error (.unknownOpcode 0x0123) := by decide
theorem test_decode_unknown_5xyn : decode 0x5121#16 = .error (.unknownOpcode 0x5121) := by decide
theorem test_decode_unknown_8xyn : decode 0x8018#16 = .error (.unknownOpcode 0x8018) := by decide
theorem test_decode_unknown_9xyn : decode 0x912F#16 = .error (.unknownOpcode 0x912F) := by decide
theorem test_decode_unknown_Exnn : decode 0xE19F#16 = .error (.unknownOpcode 0xE19F) := by decide
theorem test_decode_unknown_Fxnn : decode 0xF1FF#16 = .error (.unknownOpcode 0xF1FF) := by decide

/-- The first byte is the high one (R42), the rest comes back, and one byte is no word. -/
theorem test_decodeBytes : decodeBytes [0xA3, 0x00, 0x12] = .ok (.ldI 0x300, [0x12]) := by decide
theorem test_decodeBytes_truncated : decodeBytes [0xA3] = .error (.truncated [0xA3]) := by decide
theorem test_decodeTableWord : decodeTableWord 16 0xD12F = some (.drw 1 2 15) := by decide
theorem test_withFetchWord : next (State.reset.withFetchWord 16 0x6A42) (fun t => t.reg 10 == 0x42) = true := by decide

/-! ### Tick, fetch, unknown words (T1 to T11) -/

theorem test_nop_T1 : next (start 0x0000) (fun t => t.pc == 0x202) = true := by decide

theorem test_unknown_T2 : output (.tick 0) (start 0x8018) = some (.okUnknownOpcode 0x8018) := by decide

theorem test_fetch_last_T8 :
    next { State.reset.store 4094 (wordBytes 0x6105) with pc := 0xFFE } (fun t => t.reg 1 == 5 && t.pc == 0x1000) = true := by
  decide

theorem test_fetch_fault_T9 :
    fault { State.reset with pc := 0xFFF } = some (.programCounterOutOfBounds 0xFFF) := by decide

/-! ### Control flow (C1 to C23) -/

theorem test_jp_C1 : next (start 0x1ABC) (fun t => t.pc == 0xABC) = true := by decide

theorem test_call_C5 :
    next { start 0x2ABC with sp := 15 } (fun t => t.pc == 0xABC && t.sp == 16 && t.stack[15] == 0x202) = true := by decide

theorem test_call_C6 : fault { start 0x2ABC with sp := 16 } = some (.callStackOverflow 0x200 0x2ABC) := by decide

theorem test_ret_C9 :
    next { start 0x00EE with sp := 16, stack := State.reset.stack.set 15 0xFFF } (fun t => t.pc == 0xFFF && t.sp == 15) =
      true := by decide

theorem test_ret_C8 : fault (start 0x00EE) = some (.callStackUnderflow 0x200 0x00EE) := by decide

theorem test_jpV0_C11 : next (start1 0xBFFF 0 0xFF) (fun t => t.pc == 0x10FE) = true := by decide

theorem test_seImm_C13 : next (start1 0x3342 3 0x42) (fun t => t.pc == 0x204) = true := by decide
theorem test_seImm_C14 : next (start1 0x3343 3 0x42) (fun t => t.pc == 0x202) = true := by decide
theorem test_sneImm_C15 : next (start1 0x4342 3 0x42) (fun t => t.pc == 0x202) = true := by decide
theorem test_sneImm_C16 : next (start1 0x4343 3 0x42) (fun t => t.pc == 0x204) = true := by decide
theorem test_seReg_C17 : next (start2 0x5120 1 7 2 7) (fun t => t.pc == 0x204) = true := by decide
theorem test_seReg_C18 : next (start2 0x5120 1 7 2 8) (fun t => t.pc == 0x202) = true := by decide
theorem test_sneReg_C20 : next (start2 0x9120 1 7 2 8) (fun t => t.pc == 0x204) = true := by decide
theorem test_sneReg_C22 : next (start1 0x9110 1 7) (fun t => t.pc == 0x202) = true := by decide

/-! ### Arithmetic and logic (A1 to A37) -/

theorem test_ldImm_A2 : next (start1 0x6F00 15 1) (fun t => t.reg 15 == 0 && t.pc == 0x202) = true := by decide
theorem test_addImm_A4 : next (start2 0x7101 1 0xFF 15 1) (fun t => t.reg 1 == 0 && t.reg 15 == 1) = true := by decide
theorem test_ldReg_A6 : next (start2 0x8120 1 0x12 2 0x34) (fun t => t.reg 1 == 0x34 && t.reg 2 == 0x34) = true := by
  decide
theorem test_orReg_A11 : next (start2 0x8F21 15 0x0F 2 0xF0) (fun t => t.reg 15 == 0xFF) = true := by decide
theorem test_andReg_A8 : next (start2 0x8122 1 0x3C 2 0x0F) (fun t => t.reg 1 == 0x0C) = true := by decide
theorem test_xorReg_A9 : next (start2 0x8123 1 0x3C 2 0x0F) (fun t => t.reg 1 == 0x33) = true := by decide
theorem test_addReg_A15 : next (start2 0x8F14 15 0xFF 1 2) (fun t => t.reg 15 == 1 && t.reg 1 == 2) = true := by decide
theorem test_addReg_A17 : next (start2 0x81F4 1 2 15 0xFF) (fun t => t.reg 1 == 1 && t.reg 15 == 1) = true := by decide
theorem test_subReg_A19 : next (start2 0x8125 1 3 2 5) (fun t => t.reg 1 == 0xFE && t.reg 15 == 0) = true := by decide
theorem test_subReg_A20 : next (start2 0x8125 1 5 2 5) (fun t => t.reg 1 == 0 && t.reg 15 == 1) = true := by decide
theorem test_shr_A23 : next (start1 0x8106 1 5) (fun t => t.reg 1 == 2 && t.reg 15 == 1) = true := by decide
theorem test_shr_A26 : next (start1 0x8F06 15 2) (fun t => t.reg 15 == 0) = true := by decide
theorem test_subnReg_A27 : next (start2 0x8127 1 3 2 5) (fun t => t.reg 1 == 2 && t.reg 15 == 1) = true := by decide
theorem test_subnReg_A28 : next (start2 0x8127 1 5 2 3) (fun t => t.reg 1 == 0xFE && t.reg 15 == 0) = true := by decide
theorem test_shl_A30 : next (start1 0x810E 1 0x81) (fun t => t.reg 1 == 2 && t.reg 15 == 1) = true := by decide
theorem test_shl_A33 : next (start1 0x8F0E 15 0x7F) (fun t => t.reg 15 == 0) = true := by decide
theorem test_rnd_A34 : next (start 0xC10F 0xA7) (fun t => t.reg 1 == 0x07) = true := by decide

/-! ### Index register and memory (M1 to M24) -/

theorem test_ldI_M2 : next (start 0xAFFF) (fun t => t.i == 0xFFF) = true := by decide
theorem test_addI_M3 : next ((start1 0xF11E 1 3).setI 0xFFE) (fun t => t.i == 0x1001 && t.reg 15 == 0) = true := by decide
theorem test_addI_M4 : next ((start1 0xF11E 1 2).setI 0xFFFF) (fun t => t.i == 1) = true := by decide
theorem test_ldF_M5 : next (start1 0xF129 1 0x0A) (fun t => t.i == 0x32) = true := by decide
theorem test_ldF_M7 : next (start1 0xF129 1 0xFF) (fun t => t.i == 0x4FB) = true := by decide
theorem test_ldB_M11 :
    next ((start1 0xF233 2 0xC7).setI 0xFFD) (fun t => t.byte 0xFFD == 1 && t.byte 0xFFE == 9 && t.byte 0xFFF == 9) =
      true := by decide
theorem test_ldB_M12 :
    fault ((start1 0xF233 2 0xC7).setI 0xFFE) = some (.memoryAccessOutOfBounds 0x200 0xF233) := by decide
theorem test_storeRegs_M18 :
    next ((start2 0xF155 0 0x12 1 0x06).setI 0x202)
      (fun t => t.wordAt 0x202 == 0x1206 && t.byte 0x204 == 0 && t.i == 0x202) = true := by decide
theorem test_storeRegs_M17 :
    fault ((start 0xFF55).setI 0xFF1) = some (.memoryAccessOutOfBounds 0x200 0xFF55) := by decide
theorem test_loadRegs_M24 :
    next ((start1 0xF165 2 9).setI 0x200) (fun t => t.reg 0 == 0xF1 && t.reg 1 == 0x65 && t.reg 2 == 9) = true := by decide
theorem test_loadRegs_M23 :
    fault ((start 0xFF65).setI 0xFF1) = some (.memoryAccessOutOfBounds 0x200 0xFF65) := by decide

/-! ### Display (G1 to G15) -/

theorem test_cls_G1 :
    next (withPixel (withPixel (start1 0x00E0 15 1) 5 10) 31 63)
      (fun t => t.pixel 5 10 == false && t.pixel 31 63 == false && t.reg 15 == 1) = true := by decide

theorem test_drw_G4 :
    next (withPixel (((start2 0xD121 1 4 2 2).setI 0x300).store 0x300 [0xC0]) 2 4)
      (fun t => t.pixel 2 4 == false && t.pixel 2 5 == true && t.reg 15 == 1) = true := by decide

theorem test_drw_G6 :
    next (((start2 0xD122 1 0x3C 2 0x1F).setI 0x300).store 0x300 [0xFF, 0xFF])
      (fun t => t.pixel 0 3 && t.pixel 31 60 && t.pixel 0 63 && t.pixel 31 0 && !t.pixel 1 0 && !t.pixel 0 4 &&
        t.reg 15 == 0) = true := by decide

/-! ### Keypad and timer instructions (K1 to K17) -/

theorem test_skp_K7 :
    next { start1 0xE19E 1 0x0F with keys := (withKeys [15]).keys } (fun t => t.pc == 0x204) = true := by decide
theorem test_skp_K5 : fault (start1 0xE19E 1 0x10) = some (.keyIndexOutOfRange 0x200 0xE19E) := by decide
theorem test_sknp_K4 : next (start1 0xE1A1 1 0x0A) (fun t => t.pc == 0x204) = true := by decide
theorem test_sknp_K6 :
    fault { start1 0xE1A1 1 0xFF with keys := (withKeys [15]).keys } = some (.keyIndexOutOfRange 0x200 0xE1A1) := by decide
theorem test_ldVxK_K8 : next (start1 0xF30A 3 0x99) (fun t => t.pc == 0x200 && t.reg 3 == 0x99) = true := by decide
theorem test_ldVxK_K10 :
    next { start 0xF30A with keys := (withKeys [9, 2, 12]).keys } (fun t => t.pc == 0x202 && t.reg 3 == 2) = true := by
  decide
theorem test_ldVxDT_K13 : next ((start 0xF107).setDt 44) (fun t => t.reg 1 == 0x2C && t.dt == 44) = true := by decide
theorem test_ldDTVx_K14 : next (start1 0xF115 1 5) (fun t => t.dt == 5 && t.st == 0) = true := by decide
theorem test_ldSTVx_K16 : next (start1 0xF218 2 0x1E) (fun t => t.st == 30 && t.soundActive) = true := by decide

/-! ### Host operations (H1 to H17) -/

theorem test_timerTick_H3 : output .timerTick (State.reset.setSt 1) = some (.soundStop true) := by decide

theorem test_timerTick_H4 :
    next { State.reset.setSt 2 with schedule := [.timerTick] } (fun t => t.st == 1 && t.dt == 0 && t.schedule == []) =
      true := by decide

theorem test_setKey_H10 :
    next { withKeys [3, 4] with schedule := [.setKey 3 false] } (fun t => !t.keys[3] && t.keys[4]) = true := by decide

theorem test_load_H14 :
    next { State.reset.store 512 [0x60, 0x01, 0x77] with pc := 0x2A0, schedule := [.load [0x12, 0x00]] }
      (fun t => t.byte 512 == 0x12 && t.byte 513 == 0 && t.byte 514 == 0x77 && t.pc == 0x2A0) = true := by decide

theorem test_load_rejected_H12 : output (.load (List.replicate 3585 0xAA)) State.reset = some .romTooLarge := by
  have h : ¬(List.replicate 3585 (0xAA : Byte)).length ≤ 3584 := by rw [List.length_replicate]; decide
  simp only [output, perform, load, if_neg h]

theorem test_reset_H15 :
    next { withPixel (State.reset.store 512 [0x12]) 1 1 with
        pc := 0x2A0, sp := 2, dt := 7, st := 7, schedule := [.reset, .timerTick] }
      (fun t => t.pc == 0x200 && t.sp == 0 && t.dt == 0 && t.st == 0 && t.byte 512 == 0 && !t.pixel 1 1 &&
        t.schedule == [.timerTick]) = true := by decide

/-- The linear index is `row × 64 + column` (R22): pixel (1, 2) is bit 66. -/
theorem test_readFramebuffer_H16 :
    ((withPixel State.reset 1 2).fbBits[66]? == some true && (withPixel State.reset 1 2).fbBits[65]? == some false) =
      true := by decide

/-- D8's codes: 1 to 5 for the faults, 6 and 7 for the rejected load and the unknown word, 0 for `Ok`. -/
theorem test_result_codes :
    [Fault.programCounterOutOfBounds 0, .callStackOverflow 0 0, .callStackUnderflow 0 0, .memoryAccessOutOfBounds 0 0,
      .keyIndexOutOfRange 0 0].map Fault.code = [1, 2, 3, 4, 5] ∧
    resultCode (.next (State.reset, .romTooLarge)) = 6 ∧ resultCode (.next (State.reset, .okUnknownOpcode 0)) = 7 ∧
    resultCode (.next (State.reset, .ok)) = 0 := by decide

/-! ### Witnesses: concrete values that meet the hypotheses of each statement, each clause at a boundary of its range -/

/-- The word at the last fetchable address, and `PC` there. -/
def lastWord (op : Word) : State := { State.reset.store 4094 (wordBytes op) with pc := 0xFFE }

theorem witness_NopOnlyAdvances : (lastWord 0x0000).pc.toNat < 4095 ∧ (lastWord 0x0000).wordAt 4094 = 0x0000 := by decide

theorem witness_NopOnlyAdvances_reset_memory :
    ({ State.reset with pc := 80 } : State).mem = State.reset.mem ∧ 80 ≤ ({ State.reset with pc := 80 } : State).pc.toNat ∧
      ({ State.reset with pc := 0x1000 } : State).pc.toNat = 4096 := by decide

theorem witness_RetPopsIntoPc_full : 0 < ({ State.reset with sp := 16 } : State).sp.val := by decide
theorem witness_RetPopsIntoPc_range :
    ({ State.reset with sp := 2, stack := (State.reset.stack.set 0 2).set 1 4096 } : State).LiveEntriesInRange := by decide
theorem witness_RetPopsIntoPc_one : 0 < ({ State.reset with sp := 1 } : State).sp.val := by decide
theorem witness_RetPopsIntoPc_empty : State.reset.sp.val = 0 := by decide

theorem witness_CallPushesAndJumps_last : ({ State.reset with sp := 15 } : State).sp.val < 16 := by decide
theorem witness_CallPushesAndJumps_full : ({ State.reset with sp := 16 } : State).sp.val = 16 := by decide

/-- The state a call at depth 15 leaves. -/
def afterCall : State := { State.reset with sp := 16, stack := State.reset.stack.set 15 512, pc := 0x300 }

theorem witness_ReturnUndoesCall :
    exec (.call 0x300) { State.reset with sp := 15 } = .next afterCall ∧
      (afterCall.setReg 3 7).sp = afterCall.sp ∧ (afterCall.setReg 3 7).stack[15]? = afterCall.stack[15]? := by
  exact ⟨rfl, rfl, rfl⟩

/-- `x ≠ 0xF`, for the arithmetic results and for both draws. -/
theorem witness_not_flagReg : (14 : Reg) ≠ flagReg ∧ (0 : Reg) ≠ flagReg := by decide

theorem witness_RandomIsMaskedByImmediate :
    (lastWord 0xC10F).pc.toNat < 4095 ∧
      (lastWord 0xC10F).wordAt (lastWord 0xC10F).pc.toNat = BitVec.ofNat 16 (0xC000 + (1 : Reg).val * 256 + (0x0F : Byte).toNat) := by
  decide

theorem witness_BcdWritesThreeDigits_last : (withI 4093).mem.wf = true ∧ (withI 4093).i.toNat ≤ 4093 := by decide
theorem witness_BcdWritesThreeDigits_fault : (withI 4094).mem.wf = true ∧ 4093 < (withI 4094).i.toNat := by decide
theorem witness_BcdWritesThreeDigits_outside : 4092 < (withI 4093).i.toNat ∧ (withI 4092).i.toNat + 2 < 4095 := by decide

theorem witness_StoreWritesV0ToVx_last :
    (withI 4080).mem.wf = true ∧ (withI 4080).i.toNat + (15 : Reg).val ≤ 4095 := by decide
theorem witness_StoreWritesV0ToVx_fault :
    (withI 4081).mem.wf = true ∧ 4095 < (withI 4081).i.toNat + (15 : Reg).val := by decide
theorem witness_StoreWritesV0ToVx_one : (withI 4095).i.toNat + (0 : Reg).val ≤ 4095 ∧ (0 : Reg).val ≤ (0 : Reg).val := by
  decide
theorem witness_LoadReadsV0ToVx_last : (withI 4095).i.toNat + (0 : Reg).val ≤ 4095 ∧ (0 : Reg).val < (15 : Reg).val := by
  decide
theorem witness_LoadReadsV0ToVx_fault : 4095 < (withI 4095).i.toNat + (1 : Reg).val := by decide

theorem witness_LoadUndoesStore :
    (withI 0x300).mem.wf = true ∧ (withI 0x300).i.toNat + (1 : Reg).val ≤ 4095 ∧
      exec (.storeRegs 1) (withI 0x300) = .next ((withI 0x300).store 0x300 [0, 0]) ∧
      (((withI 0x300).store 0x300 [0, 0]).setReg 0 9).i = (withI 0x300).i ∧
      (((withI 0x300).store 0x300 [0, 0]).setReg 0 9).byte 0x301 = ((withI 0x300).store 0x300 [0, 0]).byte 0x301 :=
  ⟨rfl, by decide, rfl, rfl, rfl⟩

theorem witness_DrawInvertsCoveredPixels_fits :
    (15 : Nat) ≤ 15 ∧ (withI 4081).i.toNat + 15 - 1 ≤ 4095 := by decide
theorem witness_DrawInvertsCoveredPixels_no_rows : (0 : Nat) = 0 ∨ (withI 0xFFFF).i.toNat + 0 - 1 ≤ 4095 := by decide
theorem witness_DrawInvertsCoveredPixels_fault : 0 < 15 ∧ 4095 < (withI 4082).i.toNat + 15 - 1 := by decide

/-- The state of vector G4: one covered pixel set, one covered pixel clear. -/
def sprite : State := withPixel (((start2 0xD121 1 4 2 2).setI 0x300).store 0x300 [0xC0]) 2 4

theorem witness_DrawInvertsCoveredPixels_covered : SpriteCovers sprite 1 2 1 2 4 :=
  ⟨0, 0, by decide, by decide, by decide, by decide, by decide⟩
theorem witness_DrawInvertsCoveredPixels_not_covered : ¬SpriteCovers sprite 1 2 0 2 4 :=
  fun ⟨_, _, h, _⟩ => absurd h (Nat.not_lt_zero _)
theorem witness_DrawInvertsCoveredPixels_collision :
    next sprite (fun t => sprite.pixel 2 4 && !t.pixel 2 4) = true := by decide

theorem witness_DrawTwiceRestores :
    (1 : Reg) ≠ flagReg ∧ (2 : Reg) ≠ flagReg ∧ 1 ≤ 15 ∧ sprite.i.toNat + 1 - 1 ≤ 4095 ∧
      (SpriteCovers sprite 1 2 1 2 5 ∧ sprite.pixel 2 5 = false) :=
  ⟨by decide, by decide, by decide, by decide, ⟨0, 1, by decide, by decide, by decide, by decide, by decide⟩, by decide⟩

theorem witness_KeySkipsFollowTheLatch_last : ((withReg 1 15).reg 1).toNat = (15 : Fin 16).val := by decide
theorem witness_KeySkipsFollowTheLatch_fault : 15 < ((withReg 1 16).reg 1).toNat := by decide

theorem witness_KeyWaitLoadsLowestKey_none : ∀ k : Fin 16, (withKeys []).keys[k] = false := by decide
theorem witness_KeyWaitLoadsLowestKey_lowest :
    (withKeys [15]).keys[15] = true ∧ ∀ j : Fin 16, j < 15 → (withKeys [15]).keys[j] = false := by decide
theorem witness_KeyWaitLoadsLowestKey_zero :
    (withKeys [0, 5]).keys[0] = true ∧ ∀ j : Fin 16, j < 0 → (withKeys [0, 5]).keys[j] = false := by decide
theorem witness_KeyPickIsAPressedKey :
    keyWaitPick .any 1 (withKeys [2, 9]).keys = some 9 ∧ keyWaitPick .lowest 1 (withKeys [2, 9]).keys = some 2 := by decide

theorem witness_ResetRestoresEverything : HostOp.powerOn = .powerOn ∨ HostOp.powerOn = .reset := by decide

theorem witness_LoadCopiesOrRejects_last :
    State.reset.mem.wf = true ∧ (List.replicate 3584 (0xAA : Byte)).length ≤ 3584 :=
  ⟨rfl, by rw [List.length_replicate]⟩
theorem witness_LoadCopiesOrRejects_too_long :
    State.reset.mem.wf = true ∧ 3584 < (List.replicate 3585 (0xAA : Byte)).length :=
  ⟨rfl, by rw [List.length_replicate]; decide⟩
theorem witness_LoadCopiesOrRejects_byte : [(0x12 : Byte), 0x34][1]? = some 0x34 := by decide

theorem witness_SoundStop : output .timerTick (State.reset.setSt 1) = some (.soundStop true) ∧
    output .timerTick State.reset = some (.soundStop false) := by decide

theorem witness_Fetch_last : (lastWord 0x1234).pc.toNat < 4095 := by decide
theorem witness_Fetch_fault : 4095 ≤ ({ State.reset with pc := 0xFFF } : State).pc.toNat := by decide

theorem witness_StepRunsTheDecodedInstruction_free :
    (lastWord 0x6105).pc.toNat < 4095 ∧
      decodeBytes [(lastWord 0x6105).byte 4094, (lastWord 0x6105).byte 4095] = .ok (.ldImm 1 5, []) ∧
      (lastWord 0x6105).schedule = [] := by decide
theorem witness_StepRunsTheDecodedInstruction_scheduled :
    (start 0x6105 7).pc.toNat < 4095 ∧
      decodeBytes [(start 0x6105 7).byte 512, (start 0x6105 7).byte 513] = .ok (.ldImm 1 5, []) ∧
      (start 0x6105 7).schedule = .tick 7 :: [] := by decide

theorem witness_StepPerformsScheduledOperations_ticks :
    State.reset.schedule = [] ∧ (start 0x00E0 5).schedule = .tick 5 :: [] := by decide
theorem witness_StepPerformsScheduledOperations :
    ({ State.reset with schedule := [.timerTick, .tick 3] } : State).schedule = .timerTick :: [.tick 3] ∧
      ∀ b : Byte, HostOp.timerTick ≠ .tick b := ⟨rfl, by intro b h; cases h⟩

theorem witness_UnknownOpcodeIsANoOp :
    (lastWord 0x8018).pc.toNat < 4095 ∧ ∀ row ∈ opcodeTable, row.covers ((lastWord 0x8018).wordAt 4094) = false := by decide

theorem witness_FaultRecordsAddressAndWord :
    fault (start 0x00EE) = some (.callStackUnderflow 0x200 0x00EE) ∧
      fault { State.reset with pc := 0x1000 } = some (.programCounterOutOfBounds 0x1000) := by decide

theorem witness_DecodeOfEncode : Instr.wellFormed (.drw 1 2 15) = true ∧ Instr.wellFormed (.drw 15 15 0) = true := by decide
theorem witness_EncodeOfDecode : decode 0x8786#16 = .ok (.shr 7 8) := by decide
theorem witness_DecodeAgreesWithTheOpcodeTable :
    (⟨"RET", 0xFFFF, 0x00EE⟩ : OpcodeRow) ∈ opcodeTable ∧ OpcodeRow.covers ⟨"RET", 0xFFFF, 0x00EE⟩ 0x00EE = true := by decide

/-- A state at both bounds of the invariant: `PC` the largest reachable, a live entry of 2 and one of 4096. -/
def boundary : State :=
  { State.reset with pc := 0x10FE, sp := 2, stack := (State.reset.stack.set 0 2).set 1 4096, schedule := [.timerTick] }

theorem witness_EveryStepKeepsTheInvariant_bounds :
    boundary.Inv ∧ step boundary = .next { boundary with schedule := [] } := ⟨by decide, rfl⟩
theorem witness_EveryStepKeepsTheInvariant_tick :
    (start 0xB300).Inv ∧ next (start 0xB300) (fun t => t.pc == 0x300) = true := by decide

theorem witness_PcGoesOnlyWhereRuled_jp : exec (.jp 0xFFF) State.reset = .next { State.reset with pc := 0xFFF } := rfl
theorem witness_PcGoesOnlyWhereRuled_jpV0 :
    exec (.jpV0 0xFFF) (withReg 0 0xFF) = .next { withReg 0 0xFF with pc := 0x10FE } := rfl
theorem witness_PcGoesOnlyWhereRuled_ret :
    exec .ret afterCall = .next { afterCall with pc := 512, sp := 15 } := rfl
theorem witness_PcGoesOnlyWhereRuled_skip :
    exec (.seImm 0 0) State.reset = .next { State.reset with pc := 0x202 } := rfl

theorem witness_TickTouchesTimersOnlyByLoads_dt :
    next (start1 0xF115 1 5) (fun t => t.dt != (start1 0xF115 1 5).dt) = true := by decide
theorem witness_TickTouchesTimersOnlyByLoads_st :
    next (start1 0xF118 1 5) (fun t => t.st != (start1 0xF118 1 5).st) = true := by decide

theorem witness_PartsAreWrittenOnlyAsListed : exec .nop State.reset = .next State.reset := rfl

theorem witness_VfIsWrittenOnlyAsRuled_flag :
    exec (.addReg 15 1) State.reset = .next (State.reset.setReg 15 0) ∧ (14 : Reg) ≠ flagReg := ⟨rfl, by decide⟩

theorem witness_FixedPointsOfTheTick_jp :
    (start 0x1200).pc.toNat < 4095 ∧ decode ((start 0x1200).wordAt 512) = .ok (.jp 0x200) ∧ (0x200 : Addr12).toNat = 512 := by
  decide
theorem witness_FixedPointsOfTheTick_jpV0 :
    decode ((start1 0xB1FE 0 2).wordAt 512) = .ok (.jpV0 0x1FE) ∧
      ((start1 0xB1FE 0 2).reg 0).toNat + (0x1FE : Addr12).toNat = 512 := by decide
theorem witness_FixedPointsOfTheTick_keyWait :
    decode ((start 0xF30A).wordAt 512) = .ok (.ldVxK 3) ∧ ∀ k : Fin 16, (start 0xF30A).keys[k] = false := by decide

end Sys2Proof.Machine.Tests
end

section
/-! SUPPORT. What an instruction that completes has written, and from it the statements on the state:
reset, the parts an instruction writes, `PC`, `VF` and the invariant. -/

namespace Sys2Proof.Machine

/-! ### What a completing instruction has written -/

/-- `Fx0A` finds no key exactly while none is pressed, for both values of `KEYWAIT_PICK`
(spec/45_keypad_timers.md R172). -/
theorem keyWaitPick_eq_none (pick : Config.KeywaitPick) (draw : Nat) (keys : Vector Bool 16) :
    keyWaitPick pick draw keys = none ↔ keys = Vector.replicate 16 false := by
  have hnil : keyWaitPick pick draw keys = none ↔ pressedKeys keys = [] := by
    cases pick with
    | lowest => simp [keyWaitPick]
    | any =>
      rw [keyWaitPick, List.getElem?_eq_none_iff, ← List.length_eq_zero_iff]
      have := Nat.mod_lt draw (y := (pressedKeys keys).length)
      omega
  rw [hnil, pressedKeys_eq_nil, Vector.ext_iff]
  simp [Fin.forall_iff]

/-- What `i` has written when it completes, from the state `s` that fetch left to `t`: exact where it moves `PC` or the
call stack; of a value written to a register, to `I` or to memory only the place is said. -/
def Footprint (i : Instr) (s t : State) : Prop :=
  match i with
  | .nop => t = s
  | .cls => t = s.setFb blankFb
  | .ret => pop s = some t
  | .jp nnn => t = s.setPc (addrOf nnn)
  | .call nnn => ∃ u, push s = some u ∧ t = u.setPc (addrOf nnn)
  | .jpV0 nnn => t = s.setPc (jumpTarget (s.reg 0) nnn)
  | .seImm _ _ | .sneImm _ _ | .seReg _ _ | .sneReg _ _ | .skp _ | .sknp _ => ∃ c, t = skipIf c s
  | .ldImm x _ | .addImm x _ | .ldReg x _ | .orReg x _ | .andReg x _ | .xorReg x _ | .rnd x _ | .ldVxDT x =>
    ∃ b, t = s.setReg x b
  | .addReg x _ | .subReg x _ | .shr x _ | .subnReg x _ | .shl x _ => ∃ b c, t = writeThenFlag x b (flagByte c) s
  | .drw _ _ _ => ∃ fb c, t = (s.setFb fb).setReg flagReg (flagByte c)
  | .ldVxK x =>
    (s.keys = Vector.replicate 16 false ∧ t = s.setPc (s.pc - 2)) ∨
      (s.keys ≠ Vector.replicate 16 false ∧ ∃ b, t = s.setReg x b)
  | .ldI _ | .addI _ | .ldF _ => ∃ a, t = s.setI a
  | .ldDTVx x => t = s.setDt (s.reg x)
  | .ldSTVx x => t = s.setSt (s.reg x)
  | .ldB _ | .storeRegs _ => ∃ a bytes, a + bytes.length ≤ 4096 ∧ t = s.store a bytes
  | .loadRegs x => t = s.loadRegs x

theorem execRet_next {s t : State} (h : execRet s = .next t) : pop s = some t := by
  unfold execRet at h
  split at h
  · next hp => rwa [Host.Outcome.next.inj h] at hp
  · cases h

theorem execCall_next {nnn : Addr12} {s t : State} (h : execCall nnn s = .next t) :
    ∃ u, push s = some u ∧ t = u.setPc (addrOf nnn) := by
  unfold execCall at h
  split at h
  · next u hp => exact ⟨u, hp, (Host.Outcome.next.inj h).symm⟩
  · cases h

theorem execSkp_next {x : Reg} {s t : State} (h : execSkp x s = .next t) :
    ∃ k, keyIndex (s.reg x) = some k ∧ t = skipIf s.keys[k] s := by
  unfold execSkp at h
  split at h
  · next k hk => exact ⟨k, hk, (Host.Outcome.next.inj h).symm⟩
  · cases h

theorem execSknp_next {x : Reg} {s t : State} (h : execSknp x s = .next t) :
    ∃ k, keyIndex (s.reg x) = some k ∧ t = skipIf (!s.keys[k]) s := by
  unfold execSknp at h
  split at h
  · next k hk => exact ⟨k, hk, (Host.Outcome.next.inj h).symm⟩
  · cases h

theorem execLdVxK_next {x : Reg} {s t : State} (h : execLdVxK x s = .next t) :
    Footprint (.ldVxK x) s t := by
  unfold execLdVxK at h
  split at h
  · next k hk =>
    refine Or.inr ⟨fun hz => ?_, _, (Host.Outcome.next.inj h).symm⟩
    rw [(keyWaitPick_eq_none _ _ _).2 hz] at hk
    cases hk
  · next hk => exact Or.inl ⟨(keyWaitPick_eq_none _ _ _).1 hk, (Host.Outcome.next.inj h).symm⟩

/-- An answer under a bounds check that completes comes from a check that held. -/
theorem checked_next {c : Prop} [Decidable c] {u t : State} {kind : Word → Word → Fault} {i : Instr} {s : State}
    (h : (if c then .next u else raise kind i s : Result) = .next t) : c ∧ t = u := by
  split at h
  · next hc => exact ⟨hc, (Host.Outcome.next.inj h).symm⟩
  · cases h

/-- Every instruction that completes has written its footprint. -/
theorem exec_footprint {i : Instr} {s t : State} (h : exec i s = .next t) : Footprint i s t := by
  cases i with
  | nop | cls | jp _ | jpV0 _ | ldDTVx _ | ldSTVx _ => exact (Host.Outcome.next.inj h).symm
  | seImm _ _ | sneImm _ _ | seReg _ _ | sneReg _ _ => exact ⟨_, (Host.Outcome.next.inj h).symm⟩
  | ldImm _ _ | addImm _ _ | ldReg _ _ | orReg _ _ | andReg _ _ | xorReg _ _ | rnd _ _ | ldVxDT _ =>
    exact ⟨_, (Host.Outcome.next.inj h).symm⟩
  | addReg _ _ | subReg _ _ | shr _ _ | subnReg _ _ | shl _ _ => exact ⟨_, _, (Host.Outcome.next.inj h).symm⟩
  | ldI _ | addI _ | ldF _ => exact ⟨_, (Host.Outcome.next.inj h).symm⟩
  | ret => exact execRet_next h
  | call _ => exact execCall_next h
  | skp _ =>
    obtain ⟨k, -, ht⟩ := execSkp_next h
    exact ⟨_, ht⟩
  | sknp _ =>
    obtain ⟨k, -, ht⟩ := execSknp_next h
    exact ⟨_, ht⟩
  | ldVxK _ => exact execLdVxK_next h
  | drw x y n => exact ⟨_, _, (checked_next h).2⟩
  | ldB x =>
    obtain ⟨hfit, ht⟩ := checked_next h
    refine ⟨_, _, ?_, ht⟩
    have := (accessFits_iff _ _).1 hfit
    simp only [bcdDigits_length]
    omega
  | storeRegs x =>
    obtain ⟨hfit, ht⟩ := checked_next h
    refine ⟨_, _, ?_, ht⟩
    have := (accessFits_iff _ _).1 hfit
    simp only [State.regsUpTo_length]
    omega
  | loadRegs x => exact (checked_next h).2

/-! ### Reset -/

/-- Settles O36, field by field; memory lists nothing, so every address reads as `Memory.initial`. -/
theorem resetHoldsTheListedValues : Obligations.ResetHoldsTheListedValues := by
  have hbyte (a : Nat) : State.reset.byte a = Memory.initial a := rfl
  refine ⟨fun r => ?_, rfl, rfl, rfl, fun j => ?_, rfl, rfl, fun a => ?_, fun a ha => ?_, fun r c => ?_,
    fun k => ?_, rfl⟩
  · simp [State.reg, State.reset]
  · simp [State.reset]
  · rw [hbyte, Memory.initial, dif_pos a.isLt]
    rfl
  · rw [hbyte, Memory.initial, dif_neg (by simpa using ha)]
  · simp [State.pixel, State.reset]
  · simp [State.reset]

/-- Settles O54: `PC` is 512 and no stack entry is live. -/
theorem resetMeetsTheInvariant : Obligations.ResetMeetsTheInvariant :=
  ⟨State.reset_mem_wf, by decide, fun j hj => absurd hj (Nat.not_lt_zero j.val)⟩

/-! ### Parts, `PC` and `VF` -/

/-- Settles O58, from the frame of the update each footprint names. -/
theorem partsAreWrittenOnlyAsListed : Obligations.PartsAreWrittenOnlyAsListed := by
  intro i s t h
  have hf := exec_footprint h
  cases i with
  | nop =>
    obtain rfl := hf
    exact .refl [] t
  | cls =>
    obtain rfl := hf
    exact keeps_setFb _ s
  | ret => exact keeps_pop hf
  | call nnn =>
    obtain ⟨u, hu, rfl⟩ := hf
    exact (keeps_push hu).trans ((keeps_setPc _ u).mono (by simp))
  | jp nnn =>
    obtain rfl := hf
    exact keeps_setPc _ s
  | jpV0 nnn =>
    obtain rfl := hf
    exact keeps_setPc _ s
  | seImm _ _ | sneImm _ _ | seReg _ _ | sneReg _ _ | skp _ | sknp _ =>
    obtain ⟨c, rfl⟩ := hf
    exact keeps_skipIf c s
  | ldImm x _ | addImm x _ | ldReg x _ | orReg x _ | andReg x _ | xorReg x _ | rnd x _ | ldVxDT x =>
    obtain ⟨b, rfl⟩ := hf
    exact keeps_setReg x b s
  | addReg x _ | subReg x _ | shr x _ | subnReg x _ | shl x _ =>
    obtain ⟨b, c, rfl⟩ := hf
    exact keeps_writeThenFlag x b (flagByte c) s
  | drw _ _ _ =>
    obtain ⟨fb, c, rfl⟩ := hf
    exact ((keeps_setFb fb s).mono (by simp)).trans ((keeps_setReg flagReg _ _).mono (by simp))
  | ldVxK x =>
    rcases hf with ⟨-, rfl⟩ | ⟨-, b, rfl⟩
    · exact (keeps_setPc _ s).mono (by simp)
    · exact keeps_setReg x b s
  | ldI _ | addI _ | ldF _ =>
    obtain ⟨a, rfl⟩ := hf
    exact keeps_setI a s
  | ldDTVx x =>
    obtain rfl := hf
    exact keeps_setDt _ s
  | ldSTVx x =>
    obtain rfl := hf
    exact keeps_setSt _ s
  | ldB _ | storeRegs _ =>
    obtain ⟨a, bytes, -, rfl⟩ := hf
    exact keeps_store a bytes s
  | loadRegs x =>
    obtain rfl := hf
    exact keeps_loadRegs x s

/-- Settles O56, from the footprints. -/
theorem pcGoesOnlyWhereRuled : Obligations.PcGoesOnlyWhereRuled := by
  intro i s t h
  have hf := exec_footprint h
  cases i with
  | jp nnn =>
    obtain rfl := hf
    exact addrOf_toNat nnn
  | call nnn =>
    obtain ⟨u, -, rfl⟩ := hf
    exact addrOf_toNat nnn
  | jpV0 nnn =>
    obtain rfl := hf
    exact jumpTarget_toNat (s.reg 0) nnn
  | ret =>
    obtain ⟨a, n, rfl, -, hn, ha⟩ := pop_eq_some hf
    simpa [← hn] using ha
  | seImm _ _ | sneImm _ _ | seReg _ _ | sneReg _ _ | skp _ | sknp _ =>
    obtain ⟨c, rfl⟩ := hf
    exact skipIf_pc c s
  | ldVxK x =>
    rcases hf with ⟨hk, rfl⟩ | ⟨hk, b, rfl⟩
    · simp [hk]
    · simp [hk]
  | nop | cls | ldDTVx _ | ldSTVx _ | loadRegs _ =>
    obtain rfl := hf
    rfl
  | ldImm _ _ | addImm _ _ | ldReg _ _ | orReg _ _ | andReg _ _ | xorReg _ _ | rnd _ _ | ldVxDT _ | ldI _ | addI _
  | ldF _ =>
    obtain ⟨a, rfl⟩ := hf
    rfl
  | addReg _ _ | subReg _ _ | shr _ _ | subnReg _ _ | shl _ _ | drw _ _ _ =>
    obtain ⟨b, c, rfl⟩ := hf
    rfl
  | ldB _ | storeRegs _ =>
    obtain ⟨a, bytes, -, rfl⟩ := hf
    rfl

/-- A flag is 0 or 1 (spec/10_state.md R12). -/
theorem flagByte_zero_or_one (c : Bool) : flagByte c = 0 ∨ flagByte c = 1 := by
  cases c
  · exact Or.inl rfl
  · exact Or.inr rfl

/-- Settles O59: the flag writers leave a `flagByte`, the writers of one register leave the others, and the rest keep
the whole register file (`partsAreWrittenOnlyAsListed`). -/
theorem vfIsWrittenOnlyAsRuled : Obligations.VfIsWrittenOnlyAsRuled := by
  intro i s t h
  have hf := exec_footprint h
  cases i with
  | addReg x _ | subReg x _ | shr x _ | subnReg x _ | shl x _ =>
    obtain ⟨b, c, rfl⟩ := hf
    simpa using flagByte_zero_or_one c
  | drw _ _ _ =>
    obtain ⟨fb, c, rfl⟩ := hf
    simpa using flagByte_zero_or_one c
  | ldImm x _ | addImm x _ | ldReg x _ | orReg x _ | andReg x _ | xorReg x _ | rnd x _ | ldVxDT x =>
    intro hx
    obtain ⟨b, rfl⟩ := hf
    exact State.setReg_reg_ne s b hx
  | ldVxK x =>
    intro hx
    rcases hf with ⟨-, rfl⟩ | ⟨-, b, rfl⟩
    · rfl
    · exact State.setReg_reg_ne s b hx
  | loadRegs x =>
    intro hx
    obtain rfl := hf
    have hlt : ¬flagReg.val ≤ x.val := fun hle => hx (Fin.ext (by simp at hle ⊢; omega))
    rw [State.loadRegs_reg, if_neg hlt]
  | _ => exact partsAreWrittenOnlyAsListed _ s t h .regs (by decide) flagReg

/-! ### The invariant -/

/-- The live entries stay in range where the call stack is unchanged. -/
theorem liveEntriesInRange_of_same {s t : State} (hl : s.LiveEntriesInRange) (h : Part.same s t .callStack) :
    t.LiveEntriesInRange := by
  obtain ⟨hsp, hstack⟩ := h
  intro j hj
  rw [hstack]
  exact hl j (hsp ▸ hj)

/-- A pop leaves an entry that was live in `PC`, and the entries below it live. -/
theorem pop_keeps_range {s t : State} (h : pop s = some t) (hl : s.LiveEntriesInRange) :
    t.pc.toNat ≤ 4096 ∧ t.LiveEntriesInRange := by
  obtain ⟨a, n, rfl, -, hn, ha⟩ := pop_eq_some h
  refine ⟨?_, fun j hj => hl j (by simp only at hj; omega)⟩
  obtain ⟨hlt, rfl⟩ := Vector.getElem?_eq_some_iff.1 ha
  exact (hl ⟨n.val, hlt⟩ (by simp only; omega)).2

/-- A push adds the `PC` that fetch left to the live entries. -/
theorem push_keeps_range {s t : State} (h : push s = some t) (hpc : 2 ≤ s.pc.toNat ∧ s.pc.toNat ≤ 4096)
    (hl : s.LiveEntriesInRange) : t.LiveEntriesInRange := by
  obtain ⟨st, n, rfl, -, hn, hst⟩ := push_eq_some h
  intro j hj
  simp only [hst]
  split
  · exact hpc
  · exact hl j (by simp only at hj; omega)

/-- Memory stays canonical: only `Fx33` and `Fx55` write it, inside its bounds (spec/20_memory.md R44). -/
theorem exec_keeps_wf {i : Instr} {s t : State} (h : exec i s = .next t) (hm : s.mem.wf = true) :
    t.mem.wf = true := by
  have hf := exec_footprint h
  cases i with
  | ldB _ | storeRegs _ =>
    obtain ⟨a, bytes, hfit, rfl⟩ := hf
    exact Memory.wf_writeBytes hm hfit
  | ret =>
    obtain ⟨a, n, rfl, -⟩ := pop_eq_some hf
    exact hm
  | call _ =>
    obtain ⟨u, hu, rfl⟩ := hf
    obtain ⟨st, n, rfl, -⟩ := push_eq_some hu
    exact hm
  | seImm _ _ | sneImm _ _ | seReg _ _ | sneReg _ _ | skp _ | sknp _ =>
    obtain ⟨c, rfl⟩ := hf
    rwa [skipIf_eq]
  | ldVxK _ =>
    rcases hf with ⟨-, rfl⟩ | ⟨-, b, rfl⟩
    · exact hm
    · exact hm
  | nop | cls | jp _ | jpV0 _ | ldDTVx _ | ldSTVx _ | loadRegs _ =>
    obtain rfl := hf
    exact hm
  | ldImm _ _ | addImm _ _ | ldReg _ _ | orReg _ _ | andReg _ _ | xorReg _ _ | rnd _ _ | ldVxDT _ | ldI _ | addI _
  | ldF _ =>
    obtain ⟨a, rfl⟩ := hf
    exact hm
  | addReg _ _ | subReg _ _ | shr _ _ | subnReg _ _ | shl _ _ | drw _ _ _ =>
    obtain ⟨b, c, rfl⟩ := hf
    exact hm

/-- Only `00EE` and `2nnn` touch the call stack. -/
theorem exec_keeps_range {i : Instr} {s t : State} (h : exec i s = .next t)
    (hpc : 2 ≤ s.pc.toNat ∧ s.pc.toNat ≤ 4096) (hl : s.LiveEntriesInRange) : t.LiveEntriesInRange := by
  have hf := exec_footprint h
  cases i with
  | ret => exact (pop_keeps_range hf hl).2
  | call nnn =>
    obtain ⟨u, hu, rfl⟩ := hf
    exact (push_keeps_range hu hpc hl : u.LiveEntriesInRange)
  | _ => exact liveEntriesInRange_of_same hl (partsAreWrittenOnlyAsListed _ s t h .callStack (by decide))

/-- The largest `PC` an instruction can leave is that of `Bnnn`, 255 + 4095 (spec/10_state.md R16). -/
theorem exec_pc_le {i : Instr} {s t : State} (h : exec i s = .next t)
    (hpc : 2 ≤ s.pc.toNat ∧ s.pc.toNat ≤ 4096) (hl : s.LiveEntriesInRange) : t.pc.toNat ≤ 0x10FE := by
  have hruled := pcGoesOnlyWhereRuled i s t h
  cases i with
  | ret =>
    have := (pop_keeps_range (exec_footprint h) hl).1
    omega
  | jp nnn | call nnn | jpV0 nnn =>
    simp only at hruled
    omega
  | seImm _ _ | sneImm _ _ | seReg _ _ | sneReg _ _ | skp _ | sknp _ =>
    rcases hruled with hr | hr <;> rw [hr]
    · omega
    · bv_omega
  | ldVxK x =>
    simp only at hruled
    rw [hruled]
    split
    · bv_omega
    · omega
  | _ =>
    simp only at hruled
    rw [hruled]
    omega

theorem tick_keeps_inv {b : Byte} {s t : State} {out : Output} (hs : s.Inv) (h : tick b s = .next (t, out)) :
    t.Inv := by
  obtain ⟨hm, -, hl⟩ := hs
  obtain ⟨hp, hcase⟩ := tick_cases h
  have hpc := fetch_pc hp
  rcases hcase with ⟨e, -, rfl, -⟩ | ⟨i, -, hexec, -⟩
  · exact ⟨hm, by simp only [State.setPc_pc]; omega, hl⟩
  · have hfetched : 2 ≤ (s.pc + 2).toNat ∧ (s.pc + 2).toNat ≤ 4096 := by omega
    exact ⟨exec_keeps_wf hexec hm, exec_pc_le hexec hfetched hl, exec_keeps_range hexec hfetched hl⟩

theorem load_keeps_inv {bytes : List Byte} {s t : State} {out : Output} (hs : s.Inv)
    (h : load bytes s = .next (t, out)) : t.Inv := by
  obtain ⟨hm, hpc, hl⟩ := hs
  unfold load at h
  split at h
  · next hlen =>
    cases h
    exact ⟨Memory.wf_writeBytes hm (by simp only [Config.maxImage, Config.progBase] at hlen ⊢; omega), hpc, hl⟩
  · cases h
    exact ⟨hm, hpc, hl⟩

theorem perform_keeps_inv {op : HostOp} {s t : State} {out : Output} (hs : s.Inv)
    (h : perform op s = .next (t, out)) : t.Inv := by
  cases op with
  | powerOn | reset =>
    cases h
    exact resetMeetsTheInvariant
  | load bytes => exact load_keeps_inv hs h
  | tick b => exact tick_keeps_inv hs h
  | timerTick | setKey _ _ | readFramebuffer =>
    cases h
    exact hs

/-- Taking an operation off the schedule touches nothing the invariant speaks of. -/
theorem nextOp_keeps_inv {s : State} (hs : s.Inv) : (nextOp s).2.Inv := by
  unfold nextOp
  split <;> exact hs

theorem dropOutput_eq_next {r : OpResult} {t : State} (h : dropOutput r = .next t) : ∃ out, r = .next (t, out) := by
  cases r with
  | next p =>
    cases h
    exact ⟨p.2, rfl⟩
  | fault f => cases h
  | refused r => cases h

/-- Settles O55: whichever operation comes next keeps the invariant. -/
theorem everyStepKeepsTheInvariant : Obligations.EveryStepKeepsTheInvariant := by
  intro s t hs h
  obtain ⟨out, hop⟩ := dropOutput_eq_next h
  exact perform_keeps_inv (nextOp_keeps_inv hs) hop

end Sys2Proof.Machine
end

section
/-! SUPPORT. The decoder, the encoder and the opcode table say the same (spec/30_encoding.md R61 to R68): from them the
statements on the encoding. -/

namespace Sys2Proof

/-! ### The fields of an encoding: fixed bits `p` plus operands -/

theorem fields_of_nnn {op : Word} {p : Nat} {nnn : Addr12} (h : op.toNat = p + nnn.toNat) (hp : p % 4096 = 0) :
    opGroup op = p / 4096 ∧ opNNN op = nnn :=
  fields_nnn (by omega)

theorem fields_of_xnn {op : Word} {p : Nat} {x : Reg} {nn : Byte} (h : op.toNat = p + x.val * 256 + nn.toNat)
    (hp : p % 4096 = 0) : opGroup op = p / 4096 ∧ opX op = x ∧ opNN op = nn := by
  obtain ⟨hg, hx, hnn, -⟩ := fields_xnn (op := op) (g := p / 4096) (x := x) (nn := nn) (by omega)
  exact ⟨hg, hx, hnn⟩

theorem fields_of_xy {op : Word} {p : Nat} {x y : Reg} (h : op.toNat = p + fieldsXY x y) (hp : p % 4096 < 16) :
    opGroup op = p / 4096 ∧ opX op = x ∧ opY op = y ∧ opN op = p % 16 := by
  unfold fieldsXY at h
  exact fields_xyn (by omega) (by omega)

theorem fields_of_x {op : Word} {p : Nat} {x : Reg} (h : op.toNat = p + x.val * 256) (hp : p % 4096 < 256) :
    opGroup op = p / 4096 ∧ opX op = x ∧ op.toNat % 256 = p % 256 := by
  refine ⟨?_, opX_eq (by omega), by omega⟩
  unfold opGroup
  omega

/-- Settles O50: the fields of the encoding are the row's fixed nibbles and the operands, and `decode` branches on the
former and returns the latter. -/
theorem decodeOfEncode : Obligations.DecodeOfEncode := by
  intro i hwf
  have h := encode_toNat i
  generalize encode i = op at h
  cases i with
  | nop | cls | ret => simp [decode, decodeGroup0, opGroup, h, encodeNat]
  | jp nnn | call nnn | ldI nnn | jpV0 nnn =>
    obtain ⟨hg, hnnn⟩ := fields_of_nnn h (by decide)
    simp [decode, hg, hnnn]
  | seImm x nn | sneImm x nn | ldImm x nn | addImm x nn | rnd x nn =>
    obtain ⟨hg, hx, hnn⟩ := fields_of_xnn h (by decide)
    simp [decode, hg, hx, hnn]
  | seReg x y | sneReg x y =>
    obtain ⟨hg, hx, hy, hn⟩ := fields_of_xy h (by decide)
    simp [decode, decodeGroup5, decodeGroup9, hg, hx, hy, hn]
  | ldReg x y | orReg x y | andReg x y | xorReg x y | addReg x y | subReg x y | shr x y | subnReg x y | shl x y =>
    obtain ⟨hg, hx, hy, hn⟩ := fields_of_xy h (by decide)
    simp [decode, decodeGroup8, hg, hx, hy, hn]
  | drw x y n =>
    have hn15 : n ≤ 15 := of_decide_eq_true hwf
    simp only [encodeNat, fieldsXY] at h
    obtain ⟨hg, hx, hy, hn⟩ := fields_xyn (op := op) (g := 13) (n := n) (x := x) (y := y) (by omega) (by omega)
    simp [decode, hg, hx, hy, hn]
  | skp x | sknp x =>
    obtain ⟨hg, hx, hlow⟩ := fields_of_x h (by decide)
    simp [decode, decodeGroupE, hg, hx, hlow]
  | ldVxDT x | ldVxK x | ldDTVx x | ldSTVx x | addI x | ldF x | ldB x | storeRegs x | loadRegs x =>
    obtain ⟨hg, hx, hlow⟩ := fields_of_x h (by decide)
    simp [decode, decodeGroupF, hg, hx, hlow]

/-! ### A word is put together again from its fields -/

theorem toNat_eq_nnn (op : Word) : op.toNat = opGroup op * 4096 + (opNNN op).toNat := by
  simp only [opGroup, opNNN, BitVec.toNat_ofNat]
  omega

theorem toNat_eq_xnn (op : Word) : op.toNat = opGroup op * 4096 + (opX op).val * 256 + (opNN op).toNat := by
  simp only [opGroup, opX, opNN, BitVec.toNat_ofNat]
  omega

theorem toNat_eq_x (op : Word) : op.toNat = opGroup op * 4096 + (opX op).val * 256 + op.toNat % 256 := by
  simp only [opGroup, opX]
  omega

theorem toNat_eq_xyn (op : Word) : op.toNat = opGroup op * 4096 + fieldsXY (opX op) (opY op) + opN op := by
  simp only [opGroup, opX, opY, opN, fieldsXY]
  omega

theorem opN_lt (op : Word) : opN op < 16 := Nat.mod_lt _ (by decide)

theorem opGroup_lt (op : Word) : opGroup op < 16 := by
  unfold opGroup
  omega

/-! ### What each group of the decoder answers -/

/-- The instruction fits its encoding, and its encoding is the word. -/
def EncodesTo (i : Instr) (op : Word) : Prop := i.wellFormed = true ∧ encodeNat i = op.toNat

theorem decodeGroup0_encodesTo {op : Word} {i : Instr} (h : decodeGroup0 op = .ok i) : EncodesTo i op := by
  unfold decodeGroup0 at h
  split at h <;> cases h
  all_goals exact ⟨rfl, by simp_all [encodeNat]⟩

theorem decodeGroup5_encodesTo {op : Word} {i : Instr} (hg : opGroup op = 5) (h : decodeGroup5 op = .ok i) :
    EncodesTo i op := by
  have hop := toNat_eq_xyn op
  unfold decodeGroup5 at h
  split at h <;> cases h
  exact ⟨rfl, by simp only [encodeNat]; omega⟩

theorem decodeGroup9_encodesTo {op : Word} {i : Instr} (hg : opGroup op = 9) (h : decodeGroup9 op = .ok i) :
    EncodesTo i op := by
  have hop := toNat_eq_xyn op
  unfold decodeGroup9 at h
  split at h <;> cases h
  exact ⟨rfl, by simp only [encodeNat]; omega⟩

theorem decodeGroup8_encodesTo {op : Word} {i : Instr} (hg : opGroup op = 8) (h : decodeGroup8 op = .ok i) :
    EncodesTo i op := by
  have hop := toNat_eq_xyn op
  unfold decodeGroup8 at h
  split at h <;> cases h
  all_goals exact ⟨rfl, by simp only [encodeNat]; omega⟩

theorem decodeGroupE_encodesTo {op : Word} {i : Instr} (hg : opGroup op = 14) (h : decodeGroupE op = .ok i) :
    EncodesTo i op := by
  have hop := toNat_eq_x op
  unfold decodeGroupE at h
  split at h <;> cases h
  all_goals exact ⟨rfl, by simp only [encodeNat]; omega⟩

theorem decodeGroupF_encodesTo {op : Word} {i : Instr} (hg : opGroup op = 15) (h : decodeGroupF op = .ok i) :
    EncodesTo i op := by
  have hop := toNat_eq_x op
  unfold decodeGroupF at h
  split at h <;> cases h
  all_goals exact ⟨rfl, by simp only [encodeNat]; omega⟩

theorem decode_encodesTo {op : Word} {i : Instr} (h : decode op = .ok i) : EncodesTo i op := by
  have hnnn := toNat_eq_nnn op
  have hxnn := toNat_eq_xnn op
  have hxyn := toNat_eq_xyn op
  have hn := opN_lt op
  unfold decode at h
  split at h
  -- case h_(g + 1) is group g: first the groups that branch further, then `Dxyn`, whose `n` has to fit
  case h_1 => exact decodeGroup0_encodesTo h
  case h_6 hg => exact decodeGroup5_encodesTo hg h
  case h_9 hg => exact decodeGroup8_encodesTo hg h
  case h_10 hg => exact decodeGroup9_encodesTo hg h
  case h_15 hg => exact decodeGroupE_encodesTo hg h
  case h_16 hg => exact decodeGroupF_encodesTo hg h
  case h_14 hg =>
    cases h
    exact ⟨decide_eq_true (by omega), by simp only [encodeNat]; omega⟩
  case h_17 => cases h
  all_goals
    cases h
    exact ⟨rfl, by simp only [encodeNat]; omega⟩

/-- Settles O51: the decoder's answer encodes to the word as numbers, so as words. -/
theorem encodeOfDecode : Obligations.EncodeOfDecode := by
  intro op i h
  obtain ⟨hwf, hop⟩ := decode_encodesTo h
  exact ⟨hwf, BitVec.eq_of_toNat_eq (by rw [encode_toNat, hop])⟩

/-! ### The words without a meaning -/

theorem decodeGroup0_unknown_iff (op : Word) : decodeGroup0 op = .error (.unknownOpcode op) ↔
    op.toNat ≠ 0x0000 ∧ op.toNat ≠ 0x00E0 ∧ op.toNat ≠ 0x00EE := by
  unfold decodeGroup0
  split <;> simp_all

theorem decodeGroup5_unknown_iff (op : Word) : decodeGroup5 op = .error (.unknownOpcode op) ↔ op.toNat % 16 ≠ 0 := by
  unfold decodeGroup5 opN
  split <;> simp_all

theorem decodeGroup9_unknown_iff (op : Word) : decodeGroup9 op = .error (.unknownOpcode op) ↔ op.toNat % 16 ≠ 0 := by
  unfold decodeGroup9 opN
  split <;> simp_all

theorem decodeGroup8_unknown_iff (op : Word) : decodeGroup8 op = .error (.unknownOpcode op) ↔
    op.toNat % 16 ∈ [8, 9, 0xA, 0xB, 0xC, 0xD, 0xF] := by
  have hn : op.toNat % 16 < 16 := opN_lt op
  unfold decodeGroup8 opN
  generalize op.toNat % 16 = n at hn ⊢
  interval_cases n <;> simp

theorem decodeGroupE_unknown_iff (op : Word) : decodeGroupE op = .error (.unknownOpcode op) ↔
    op.toNat % 256 ∉ [0x9E, 0xA1] := by
  unfold decodeGroupE
  split <;> simp_all

theorem decodeGroupF_unknown_iff (op : Word) : decodeGroupF op = .error (.unknownOpcode op) ↔
    op.toNat % 256 ∉ [0x07, 0x0A, 0x15, 0x18, 0x1E, 0x29, 0x33, 0x55, 0x65] := by
  unfold decodeGroupF
  split <;> simp_all

theorem decode_ok_or_unknown (op : Word) : (∃ i, decode op = .ok i) ∨ decode op = .error (.unknownOpcode op) := by
  simp only [decode, decodeGroup0, decodeGroup5, decodeGroup8, decodeGroup9, decodeGroupE, decodeGroupF]
  repeat' split
  all_goals simp

/-- Settles O53, group by group: the groups not listed decode every word. -/
theorem unknownWordsAreTheListedOnes : Obligations.UnknownWordsAreTheListedOnes := by
  intro op
  have hlt := opGroup_lt op
  rw [← opGroup, decode]
  generalize opGroup op = g at hlt ⊢
  interval_cases g <;> simp [decodeGroup0_unknown_iff, decodeGroup5_unknown_iff, decodeGroup8_unknown_iff,
    decodeGroup9_unknown_iff, decodeGroupE_unknown_iff, decodeGroupF_unknown_iff]

/-! ### The opcode table -/

/-- Two rows of the table have different values on the bits that both fix (spec/30_encoding.md R64). -/
theorem opcodeTable_disjoint : ∀ row ∈ opcodeTable, ∀ row' ∈ opcodeTable,
    row.pattern &&& row'.mask = row'.pattern &&& row.mask → row = row' := by
  decide

theorem eq_of_covers {row row' : OpcodeRow} {op : Word} (hrow : row ∈ opcodeTable) (hrow' : row' ∈ opcodeTable)
    (h : row.covers op = true) (h' : row'.covers op = true) : row = row' := by
  have hp : op &&& row.mask = row.pattern := by simpa [OpcodeRow.covers] using h
  have hp' : op &&& row'.mask = row'.pattern := by simpa [OpcodeRow.covers] using h'
  refine opcodeTable_disjoint row hrow row' hrow' ?_
  rw [← hp, ← hp', BitVec.and_assoc, BitVec.and_assoc, BitVec.and_comm row.mask]

theorem opcodeTable_mnemonics_nodup : (opcodeTable.map OpcodeRow.mnemonic).Nodup := by
  decide

open Laws.EncodeFixesItsRow in
/-- The encoding of an instruction is covered by its row (the family of `Laws/PerInstr`). -/
theorem encode_covered : ∀ i : Instr, Statement i
  | .nop => nop | .cls => cls | .ret => ret
  | .jp a => jp a | .call a => call a | .ldI a => ldI a | .jpV0 a => jpV0 a
  | .seImm x b => seImm x b | .sneImm x b => sneImm x b | .ldImm x b => ldImm x b | .addImm x b => addImm x b
  | .rnd x b => rnd x b | .seReg x y => seReg x y | .sneReg x y => sneReg x y | .ldReg x y => ldReg x y
  | .orReg x y => orReg x y | .andReg x y => andReg x y | .xorReg x y => xorReg x y | .addReg x y => addReg x y
  | .subReg x y => subReg x y | .shr x y => shr x y | .subnReg x y => subnReg x y | .shl x y => shl x y
  | .drw x y n => drw x y n | .skp x => skp x | .sknp x => sknp x
  | .ldVxDT x => ldVxDT x | .ldVxK x => ldVxK x | .ldDTVx x => ldDTVx x | .ldSTVx x => ldSTVx x | .addI x => addI x
  | .ldF x => ldF x | .ldB x => ldB x | .storeRegs x => storeRegs x | .loadRegs x => loadRegs x

theorem covers_of_decode {op : Word} {i : Instr} (h : decode op = .ok i) :
    ∃ row ∈ opcodeTable, row.mnemonic = i.mnemonic ∧ row.covers op = true :=
  (encodeOfDecode op i h).2 ▸ encode_covered i

/-- Every mask of the table fixes the high nibble and some low bits. -/
theorem mask_of_mem : ∀ row ∈ opcodeTable, ∃ k ≤ 12, row.mask = 0xF000#16 ||| BitVec.ofNat 16 (2 ^ k - 1) := by
  decide

/-- The fixed bits of a covered word, as a number, are the row's pattern. -/
theorem fixed_bits_of_covers {row : OpcodeRow} {op : Word} (hrow : row ∈ opcodeTable) (h : row.covers op = true) :
    op.toNat / 4096 * 4096 + op.toNat % (row.mask.toNat % 4096 + 1) = row.pattern.toNat := by
  obtain ⟨k, hk, hmask⟩ := mask_of_mem row hrow
  have hlow : row.mask.toNat % 4096 + 1 = 2 ^ k := by
    rw [hmask]
    interval_cases k <;> rfl
  rw [hlow, ← toNat_and_mask op k hk, ← hmask, (beq_iff_eq.1 h : op &&& row.mask = row.pattern)]

/-- A covered word is decoded: the bits its row fixes keep it out of every set of R68. -/
theorem decode_of_covers {row : OpcodeRow} {op : Word} (hrow : row ∈ opcodeTable) (h : row.covers op = true) :
    ∃ i, decode op = .ok i := by
  refine (decode_ok_or_unknown op).resolve_right fun hunknown => ?_
  have hlisted := (unknownWordsAreTheListedOnes op).1 hunknown
  have hfixed := fixed_bits_of_covers hrow h
  simp only [List.mem_cons, List.not_mem_nil, or_false] at hlisted
  clear h
  fin_cases hrow
  all_goals
    simp only [BitVec.ofNat_eq_ofNat, BitVec.toNat_ofNat, Nat.reducePow, Nat.reduceMod, Nat.reduceAdd] at hfixed
    omega

/-- Settles O52: a covered word is decoded, a decoded word is covered by its instruction's row, and no other row covers
it. -/
theorem decodeAgreesWithTheOpcodeTable : Obligations.DecodeAgreesWithTheOpcodeTable := by
  intro op
  refine ⟨fun row hrow => ⟨fun h => ?_, fun ⟨i, hi, hname⟩ => ?_⟩, fun i hi => ?_, fun row hrow row' hrow' => ?_⟩
  · obtain ⟨i, hi⟩ := decode_of_covers hrow h
    obtain ⟨row', hrow', hname, h'⟩ := covers_of_decode hi
    exact ⟨i, hi, eq_of_covers hrow' hrow h' h ▸ hname.symm⟩
  · obtain ⟨row', hrow', hname', h'⟩ := covers_of_decode hi
    exact List.inj_on_of_nodup_map opcodeTable_mnemonics_nodup hrow' hrow (hname'.trans hname) ▸ h'
  · obtain ⟨row, hrow, hname, -⟩ := covers_of_decode hi
    exact ⟨row, hrow, hname⟩
  · exact eq_of_covers hrow hrow'

/-! ### Words written out -/

/-- Settles O49: each is one word, run. -/
theorem sampleWordsDecode : Obligations.SampleWordsDecode := by
  refine ⟨?_, ?_, ?_, ?_, ?_, ?_, ?_, ?_, ?_, ?_, ?_, ?_⟩ <;> decide

end Sys2Proof
end

section
/-! SUPPORT. The tick cycle (spec/40_tick_cycle.md): what fetch and a tick leave, which instruction a step runs, and the
ticks that leave the machine as it was. -/

namespace Sys2Proof.Machine

/-! ### Fetch, no-ops and unknown words -/

/-- Settles O43: both cases of a fetch, the word as a number. -/
theorem fetchReadsBigEndianAndAdvances : Obligations.FetchReadsBigEndianAndAdvances :=
  fun s => ⟨fun h => ⟨_, _, fetch_ok h, joinBytes_toNat _ _, fetch_pc h, keeps_setPc _ s⟩, fetch_fault⟩

/-- A tick up to the end of fetch, `PC` set to any value, changes only `PC` and the inputs. -/
theorem keeps_present_setPc (b : Byte) (a : Word) (s : State) :
    KeepsAllBut [.inputs] s ((State.present b s).setPc a) :=
  (keeps_present b s).trans ((keeps_setPc a _).mono (by simp))

/-- Outside the font the reset contents are 0 (spec/10_state.md R25). -/
theorem Memory.initial_eq_zero {a : Nat} (h : 80 ≤ a) : Memory.initial a = 0 :=
  dif_neg (Nat.not_lt.2 h)

/-- With memory as reset leaves it, every word from address 80 on is `0000`. -/
theorem wordAt_of_reset_mem {s : State} (hm : s.mem = State.reset.mem) {a : Nat} (h : 80 ≤ a) :
    s.wordAt a = 0x0000 := by
  have hbyte {k : Nat} (hk : 80 ≤ k) : s.byte k = 0 := by
    rw [State.byte, hm]
    exact Memory.initial_eq_zero hk
  rw [State.wordAt, hbyte h, hbyte (by omega)]
  rfl

theorem decode_zero : decode 0x0000 = .ok .nop := rfl

/-- Settles O1: a tick on `0000` leaves what fetch leaves. -/
theorem nopOnlyAdvances : Obligations.NopOnlyAdvances := by
  refine ⟨decode_zero, fun _ => rfl, fun b s hp hw => ?_, fun b s hm h80 => ⟨fun _ => ?_, fun hend => ?_⟩⟩
  · exact ⟨_, tick_next b hp (hw ▸ decode_zero) rfl, fetch_pc hp, keeps_present_setPc b _ s⟩
  · exact wordAt_of_reset_mem hm h80
  · exact tick_fetch_fault b (by omega)

/-- A word that no row covers is unknown (spec/30_encoding.md R63). -/
theorem decode_unknown_of_not_covered {op : Word} (h : ∀ row ∈ opcodeTable, row.covers op = false) :
    decode op = .error (.unknownOpcode op) := by
  refine (decode_ok_or_unknown op).resolve_left fun ⟨i, hi⟩ => ?_
  obtain ⟨row, hrow, -, hcov⟩ := covers_of_decode hi
  simp [h row hrow] at hcov

/-- Settles O46: an unknown word leaves what fetch leaves. -/
theorem unknownOpcodeIsANoOp : Obligations.UnknownOpcodeIsANoOp := by
  intro b s hp hrows
  have htick := (tick_of_fetch b hp).trans (execute_unknown (decode_unknown_of_not_covered hrows) _)
  exact ⟨_, htick, fetch_pc hp, keeps_present_setPc b _ s⟩

/-! ### The instruction a step runs -/

theorem decodeBytes_pair {hi lo : Byte} {i : Instr} {rest : List Byte} :
    decodeBytes [hi, lo] = .ok (i, rest) ↔ decode (joinBytes hi lo) = .ok i ∧ rest = [] := by
  rw [decodeBytes]
  cases decode (joinBytes hi lo) <;> simp [eq_comm]

theorem step_of_schedule_nil {s : State} (h : s.schedule = []) :
    step s = dropOutput (tick (Config.randomByte s.draws) s) := by
  simp [step, nextOp, h, perform]

theorem step_of_schedule_cons {s : State} {op : HostOp} {ops : List HostOp} (h : s.schedule = op :: ops) :
    step s = dropOutput (perform op { s with schedule := ops }) := by
  simp [step, nextOp, h]

theorem dropOutput_tick {s : State} {i : Instr} (b : Byte) (hp : s.pc.toNat < 4095)
    (hd : decode (s.wordAt s.pc.toNat) = .ok i) :
    dropOutput (tick b s) = exec i ((State.present b s).setPc (s.pc + 2)) := by
  rw [tick_of_fetch b hp, dropOutput_execute hd]

/-- Settles O44: in both cases the step is a tick on a state that holds the same word at the same `PC`. -/
theorem stepRunsTheDecodedInstruction : Obligations.StepRunsTheDecodedInstruction := by
  intro s i rest hp hbytes
  obtain ⟨hd, hrest⟩ := decodeBytes_pair.1 hbytes
  refine ⟨hrest, (encodeOfDecode _ i hd).1, fun hnil => ?_, fun b ops hcons => ?_⟩
  · exact (step_of_schedule_nil hnil).trans (dropOutput_tick _ hp hd)
  · exact (step_of_schedule_cons hcons).trans (dropOutput_tick (s := { s with schedule := ops }) b hp hd)

/-! ### Timers and keys -/

theorem exec_keys {i : Instr} {s t : State} (h : exec i s = .next t) : t.keys = s.keys := by
  cases i with
  | _ => exact partsAreWrittenOnlyAsListed _ s t h .keypad (by decide)

/-- `DT` is written by `Fx15` alone. -/
theorem exec_dt {i : Instr} {s t : State} (h : exec i s = .next t) :
    t.dt = s.dt ∨ ∃ x, i = .ldDTVx x ∧ t.dt = s.reg x := by
  cases i with
  | ldDTVx x =>
    obtain rfl := exec_footprint h
    exact Or.inr ⟨x, rfl, rfl⟩
  | _ => exact Or.inl (partsAreWrittenOnlyAsListed _ s t h .delayTimer (by decide))

/-- `ST` is written by `Fx18` alone. -/
theorem exec_st {i : Instr} {s t : State} (h : exec i s = .next t) :
    t.st = s.st ∨ ∃ x, i = .ldSTVx x ∧ t.st = s.reg x := by
  cases i with
  | ldSTVx x =>
    obtain rfl := exec_footprint h
    exact Or.inr ⟨x, rfl, rfl⟩
  | _ => exact Or.inl (partsAreWrittenOnlyAsListed _ s t h .soundTimer (by decide))

/-- Settles O57: an unknown word writes `PC` alone, and of the instructions only `Fx15` and `Fx18` write a timer. -/
theorem tickTouchesTimersOnlyByLoads : Obligations.TickTouchesTimersOnlyByLoads := by
  intro b s t out h
  obtain ⟨-, ⟨e, -, rfl, -⟩ | ⟨i, hd, hexec, -⟩⟩ := tick_cases h
  · exact ⟨rfl, fun hne => absurd rfl hne, fun hne => absurd rfl hne⟩
  · have hkeys := exec_keys hexec
    refine ⟨hkeys, fun hne => ?_, fun hne => ?_⟩
    · obtain ⟨x, rfl, hx⟩ := (exec_dt hexec).resolve_left hne
      exact ⟨x, hd, hx⟩
    · obtain ⟨x, rfl, hx⟩ := (exec_st hexec).resolve_left hne
      exact ⟨x, hd, hx⟩

/-! ### Fixed points of the tick -/

/-! `00EE` and `2nnn` change the stack depth, so a jump of theirs to their own address is no fixed point. -/

theorem pop_sp_ne {s t : State} (h : pop s = some t) : t.sp ≠ s.sp := by
  obtain ⟨a, n, rfl, -, hn, -⟩ := pop_eq_some h
  intro hsp
  simp only at hsp
  omega

theorem push_sp_ne {s t : State} (h : push s = some t) : t.sp ≠ s.sp := by
  obtain ⟨st, n, rfl, -, hn, -⟩ := push_eq_some h
  intro hsp
  simp only at hsp
  omega

theorem keys_eq_replicate_iff (keys : Vector Bool 16) :
    keys = Vector.replicate 16 false ↔ ∀ k : Fin 16, keys[k] = false := by
  rw [← keyWaitPick_eq_none .lowest 0, keyWaitPick, List.head?_eq_none_iff, pressedKeys_eq_nil]

/-- The instruction, run in the state `s` that fetch left, goes back to `pc`: the three kinds of
spec/40_tick_cycle.md R89. -/
def GoesBackTo (pc : Word) (i : Instr) (s : State) : Prop :=
  (∃ nnn, i = .jp nnn ∧ nnn.toNat = pc.toNat) ∨
  (∃ nnn, i = .jpV0 nnn ∧ (s.reg 0).toNat + nnn.toNat = pc.toNat) ∨
  ∃ x, i = .ldVxK x ∧ ∀ k : Fin 16, s.keys[k] = false

/-- The instructions that put `PC` back to where fetch found it, at the same stack depth, are of the three kinds:
`00EE` and `2nnn` change the depth, and the others leave `PC` where fetch did or two further. -/
theorem goesBackTo_of_exec {i : Instr} {s t : State} {pc : Word} (h : exec i s = .next t) (hpc : s.pc = pc + 2)
    (hback : t.pc = pc) (hsp : t.sp = s.sp) : GoesBackTo pc i s := by
  subst hback
  have hruled := pcGoesOnlyWhereRuled i s t h
  cases i with
  | jp nnn => exact Or.inl ⟨nnn, rfl, hruled.symm⟩
  | jpV0 nnn => exact Or.inr (Or.inl ⟨nnn, rfl, hruled.symm⟩)
  | ldVxK x =>
    refine Or.inr (Or.inr ⟨x, rfl, (keys_eq_replicate_iff _).1 ?_⟩)
    by_contra hkeys
    simp only [hkeys, if_false] at hruled
    bv_omega
  | ret => exact absurd hsp (pop_sp_ne (exec_footprint h))
  | call nnn =>
    obtain ⟨u, hu, rfl⟩ := exec_footprint h
    have hne := push_sp_ne hu
    exact absurd hsp hne
  | seImm _ _ | sneImm _ _ | seReg _ _ | sneReg _ _ | skp _ | sknp _ =>
    rcases hruled with hr | hr <;> bv_omega
  | _ =>
    simp only at hruled
    bv_omega

theorem execLdVxK_waiting {s : State} (x : Reg) (h : ∀ k : Fin 16, s.keys[k] = false) :
    execLdVxK x s = .next (s.setPc (s.pc - 2)) := by
  rw [execLdVxK, (keyWaitPick_eq_none _ _ _).2 ((keys_eq_replicate_iff _).2 h)]

/-- Each of the three kinds only puts `PC` back. -/
theorem exec_of_goesBackTo {i : Instr} {s : State} {pc : Word} (hpc : s.pc = pc + 2) (h : GoesBackTo pc i s) :
    exec i s = .next (s.setPc pc) := by
  rcases h with ⟨nnn, rfl, hn⟩ | ⟨nnn, rfl, hn⟩ | ⟨x, rfl, hk⟩
  · rw [← BitVec.eq_of_toNat_eq ((addrOf_toNat nnn).trans hn)]
    rfl
  · rw [← BitVec.eq_of_toNat_eq ((jumpTarget_toNat (s.reg 0) nnn).trans hn)]
    rfl
  · have hback : s.pc - 2 = pc := by rw [hpc, BitVec.add_sub_cancel]
    exact hback ▸ execLdVxK_waiting x hk

/-- A tick completes and leaves the machine as it was exactly when its instruction goes back to its own address. -/
theorem tick_sameMachine_iff (b : Byte) {s : State} (hp : s.pc.toNat < 4095) :
    (∃ t out, tick b s = .next (t, out) ∧ SameMachine s t) ↔
      ∃ i, decode (s.wordAt s.pc.toNat) = .ok i ∧ GoesBackTo s.pc i ((State.present b s).setPc (s.pc + 2)) := by
  constructor
  · rintro ⟨t, out, htick, hpc, hkeeps⟩
    obtain ⟨-, ⟨e, -, rfl, -⟩ | ⟨i, hd, hexec, -⟩⟩ := tick_cases htick
    · simp only [State.setPc_pc] at hpc
      bv_omega
    · obtain ⟨hsp, -⟩ := hkeeps .callStack (by decide)
      exact ⟨i, hd, goesBackTo_of_exec hexec rfl hpc hsp⟩
  · rintro ⟨i, hd, hback⟩
    exact ⟨_, _, tick_next b hp hd (exec_of_goesBackTo rfl hback), rfl, keeps_present_setPc b s.pc s⟩

/-- Settles O60: `tick_sameMachine_iff`, the three kinds written out. -/
theorem fixedPointsOfTheTick : Obligations.FixedPointsOfTheTick := by
  intro b s hp
  rw [tick_sameMachine_iff b hp]
  constructor
  · rintro ⟨i, hd, ⟨nnn, rfl, hn⟩ | ⟨nnn, rfl, hn⟩ | ⟨x, rfl, hk⟩⟩
    · exact Or.inl ⟨nnn, hd, hn⟩
    · exact Or.inr (Or.inl ⟨nnn, hd, hn⟩)
    · exact Or.inr (Or.inr ⟨x, hd, hk⟩)
  · rintro (⟨nnn, hd, hn⟩ | ⟨nnn, hd, hn⟩ | ⟨x, hd, hk⟩)
    · exact ⟨_, hd, Or.inl ⟨nnn, rfl, hn⟩⟩
    · exact ⟨_, hd, Or.inr (Or.inl ⟨nnn, rfl, hn⟩)⟩
    · exact ⟨_, hd, Or.inr (Or.inr ⟨x, rfl, hk⟩)⟩

end Sys2Proof.Machine
end

section
/-! SUPPORT. Control flow (spec/41_control_flow.md): return, call, jumps and skips, and that a return undoes a call. -/

namespace Sys2Proof.Machine

/-! ### Words -/

/-- The number of an encoding selects its instruction. -/
theorem selects_of_encodeNat {w : Nat} {i : Instr} (hw : encodeNat i = w) (hwf : i.wellFormed = true) : Selects w i :=
  hw ▸ decodeOfEncode i hwf

/-! ### Return -/

theorem exec_ret_of_pop {s t : State} (h : pop s = some t) : exec .ret s = .next t := by
  simp only [exec, execRet, h]

theorem exec_ret_underflow {s : State} (h : s.sp.val = 0) :
    exec .ret s = .fault (.callStackUnderflow (s.pc - 2) 0x00EE) := by
  simp only [exec, execRet, pop_eq_none.2 h]
  rfl

theorem State.LiveEntriesInRange.of_getElem? {s : State} (hl : s.LiveEntriesInRange) {k : Nat} {a : Word}
    (hk : k < s.sp.val) (ha : s.stack[k]? = some a) : 2 ≤ a.toNat ∧ a.toNat ≤ 4096 := by
  obtain ⟨hlt, rfl⟩ := Vector.getElem?_eq_some_iff.1 ha
  exact hl ⟨k, hlt⟩ hk

/-- Settles O2: `pop` answers exactly where an entry is live (`pop_isSome`, `pop_eq_none`), and the entry it takes is
the newest (`pop_eq_some`). -/
theorem retPopsIntoPc : Obligations.RetPopsIntoPc := by
  refine ⟨selects_of_encodeNat rfl rfl, fun s => ⟨fun hsp => ?_, exec_ret_underflow⟩⟩
  obtain ⟨t, ht⟩ := pop_isSome hsp
  have hkeeps := keeps_pop ht
  have hexec := exec_ret_of_pop ht
  obtain ⟨a, n, rfl, -, hn, ha⟩ := pop_eq_some ht
  exact ⟨_, hexec, hn, ha, rfl, fun hl => hl.of_getElem? (by omega) ha, hkeeps⟩

/-! ### Call -/

theorem exec_call_of_push {s u : State} (nnn : Addr12) (h : push s = some u) :
    exec (.call nnn) s = .next (u.setPc (addrOf nnn)) := by
  simp only [exec, execCall, h]

theorem exec_call_overflow {s : State} (nnn : Addr12) (h : s.sp.val = 16) :
    exec (.call nnn) s = .fault (.callStackOverflow (s.pc - 2) (BitVec.ofNat 16 (0x2000 + nnn.toNat))) := by
  simp only [exec, execCall, push_eq_none.2 h]
  rfl

/-- Settles O4: `push` answers exactly below 16 entries (`push_isSome`, `push_eq_none`) and writes the one entry at the
old depth (`push_eq_some`); the jump then writes `PC` alone. -/
theorem callPushesAndJumps : Obligations.CallPushesAndJumps := by
  refine fun nnn => ⟨selects_of_encodeNat rfl rfl, fun s => ⟨fun hsp => ?_, exec_call_overflow nnn⟩⟩
  obtain ⟨u, hu⟩ := push_isSome hsp
  have hkeeps := (keeps_push hu).trans ((keeps_setPc (addrOf nnn) u).mono (by simp))
  have hexec := exec_call_of_push nnn hu
  obtain ⟨st, n, rfl, -, hn, hst⟩ := push_eq_some hu
  exact ⟨_, hexec, hn, hst, addrOf_toNat nnn, hkeeps⟩

/-- Settles O10 from O4 and O2, as the spec derives R103 from R102 and R100: the return pops the entry at the depth
before the call, where the call wrote the `PC` that fetch left. -/
theorem returnUndoesCall : Obligations.ReturnUndoesCall := by
  intro nnn s hsp
  obtain ⟨t, hcall, htsp, htstack, -⟩ := ((callPushesAndJumps nnn).2 s).1 hsp
  refine ⟨t, hcall, fun u husp hustack => ?_⟩
  obtain ⟨w, hret, hwsp, hwpc, -⟩ := (retPopsIntoPc.2 u).1 (by omega)
  have hdepth : w.sp = s.sp := Fin.ext (by omega)
  have hentry : t.stack[s.sp.val]? = some s.pc :=
    Vector.getElem?_eq_some_iff.2 ⟨hsp, (htstack ⟨s.sp.val, hsp⟩).trans (if_pos rfl)⟩
  rw [hdepth, hustack, hentry] at hwpc
  exact ⟨w, hret, (Option.some.inj hwpc).symm, hdepth⟩

/-! ### Jumps -/

/-- Settles O3: the jump writes `PC` alone. -/
theorem jumpSetsPc : Obligations.JumpSetsPc := fun nnn =>
  ⟨selects_of_encodeNat rfl rfl, fun s => ⟨_, rfl, addrOf_toNat nnn, keeps_setPc _ s⟩⟩

/-- Settles O5: the sum of a byte and a 12-bit address fits `PC` (`jumpTarget_toNat`). -/
theorem jumpV0AddsWithoutWrap : Obligations.JumpV0AddsWithoutWrap := fun nnn =>
  ⟨selects_of_encodeNat rfl rfl, fun s => ⟨_, rfl, jumpTarget_toNat (s.reg 0) nnn, keeps_setPc _ s⟩⟩

/-! ### Skips -/

/-- A skip on equality, the bytes compared as numbers. -/
theorem skipIf_beq_pc (a b : Byte) (s : State) :
    (skipIf (a == b) s).pc = if a.toNat = b.toNat then s.pc + 2 else s.pc := by
  simp only [skipIf_eq, State.setPc_pc, beq_iff_eq, BitVec.toNat_inj]

/-- A skip on difference, the bytes compared as numbers. -/
theorem skipIf_bne_pc (a b : Byte) (s : State) :
    (skipIf (a != b) s).pc = if a.toNat = b.toNat then s.pc else s.pc + 2 := by
  simp only [skipIf_eq, State.setPc_pc, bne_iff_ne, ite_not, BitVec.toNat_inj]

/-- Settles O6: a skip on equality, which keeps every part (`keeps_skipIf`). -/
theorem skipEqualImmediate : Obligations.SkipEqualImmediate := fun x nn =>
  ⟨selects_of_encodeNat rfl rfl,
    fun s => ⟨_, rfl, skipIf_beq_pc (s.reg x) nn s, keeps_skipIf _ s⟩⟩

/-- Settles O7: a skip on difference, which keeps every part. -/
theorem skipNotEqualImmediate : Obligations.SkipNotEqualImmediate := fun x nn =>
  ⟨selects_of_encodeNat rfl rfl,
    fun s => ⟨_, rfl, skipIf_bne_pc (s.reg x) nn s, keeps_skipIf _ s⟩⟩

/-- Settles O8, as O6 with `Vy` for the immediate. -/
theorem skipEqualRegisters : Obligations.SkipEqualRegisters := fun x y =>
  ⟨selects_of_encodeNat (by simp only [encodeNat, fieldsXY, Nat.add_assoc]) rfl,
    fun s => ⟨_, rfl, skipIf_beq_pc (s.reg x) (s.reg y) s, keeps_skipIf _ s⟩⟩

/-- Settles O9, as O7 with `Vy` for the immediate. -/
theorem skipNotEqualRegisters : Obligations.SkipNotEqualRegisters := fun x y =>
  ⟨selects_of_encodeNat (by simp only [encodeNat, fieldsXY, Nat.add_assoc]) rfl,
    fun s => ⟨_, rfl, skipIf_bne_pc (s.reg x) (s.reg y) s, keeps_skipIf _ s⟩⟩

end Sys2Proof.Machine
end

section
/-! SUPPORT. Register load, arithmetic, logic, shifts and random (spec/42_alu.md): each instruction writes `Vx` alone
(`State.setReg`), or `Vx` and then `VF` (`writeThenFlag`); what is written, as numbers or bit by bit, stands in the
operands. -/

namespace Sys2Proof.Machine

/-! ### The two write shapes -/

/-- Writing one register keeps `PC`, the other registers and the other parts. -/
theorem State.setReg_frame (x : Reg) (b : Byte) (s : State) :
    (s.setReg x b).pc = s.pc ∧ KeepsRegsBut [x] s (s.setReg x b) ∧ KeepsAllBut [.regs] s (s.setReg x b) :=
  ⟨rfl, keepsRegs_setReg x b s, keeps_setReg x b s⟩

/-- Writing a result and then the flag keeps `PC`, the registers besides `Vx` and `VF`, and the other parts. -/
theorem writeThenFlag_frame (x : Reg) (a f : Byte) (s : State) :
    (writeThenFlag x a f s).pc = s.pc ∧ KeepsRegsBut [x, flagReg] s (writeThenFlag x a f s) ∧
      KeepsAllBut [.regs] s (writeThenFlag x a f s) :=
  ⟨rfl, keepsRegs_writeThenFlag x a f s, keeps_writeThenFlag x a f s⟩

/-- The result stays in `Vx` unless `x = 0xF`. -/
theorem writeThenFlag_reg_result {x : Reg} (a f : Byte) (s : State) (hx : x ≠ flagReg) :
    (writeThenFlag x a f s).reg x = a := by
  rw [writeThenFlag_reg, if_neg hx, if_pos rfl]

/-- The flag stays in `VF` for every `x` (spec/10_state.md R13). -/
theorem writeThenFlag_reg_flag (x : Reg) (a f : Byte) (s : State) : (writeThenFlag x a f s).reg flagReg = f := by
  rw [writeThenFlag_reg, if_pos rfl]

/-! ### Results and flags, as numbers -/

/-- The wrapped difference without a remainder: 256 is added exactly on a borrow. -/
theorem subWrap_toNat_borrow (a b : Byte) :
    (subWrap a b).toNat = if b.toNat ≤ a.toNat then a.toNat - b.toNat else a.toNat + 256 - b.toNat := by
  rw [subWrap_toNat]
  split <;> omega

theorem carry_toNat (a b : Byte) : (carry a b).toNat = if 255 < a.toNat + b.toNat then 1 else 0 := by
  simp only [carry, flagByte_toNat, decide_eq_true_eq]

theorem notBorrow_toNat (a b : Byte) : (notBorrow a b).toNat = if b.toNat ≤ a.toNat then 1 else 0 := by
  simp only [notBorrow, flagByte_toNat, decide_eq_true_eq]

theorem lowBit_eq_flagByte (a : Byte) : lowBit a = flagByte (a.getLsbD 0) := by
  rw [lowBit, BitVec.getLsbD, Nat.testBit_zero]

theorem highBit_eq_flagByte (a : Byte) : highBit a = flagByte (a.getLsbD 7) := by
  rw [highBit, ← BitVec.msb_eq_getLsbD_last, BitVec.msb_eq_decide]

/-! ### The words -/

/-- The encoding with two registers, its fields written out, selects its instruction. -/
theorem selects_of_fieldsXY {p : Nat} {x y : Reg} {i : Instr} (h : encodeNat i = p + fieldsXY x y)
    (hwf : i.wellFormed = true) : Selects (p + x.val * 256 + y.val * 16) i :=
  selects_of_encodeNat (h.trans (Nat.add_assoc _ _ _).symm) hwf

/-! ### Load, move and add without a flag -/

/-- Settles O11: one register is written. -/
theorem loadImmediateSetsVx : Obligations.LoadImmediateSetsVx := fun x nn =>
  ⟨selects_of_encodeNat rfl rfl, fun s => ⟨_, rfl, State.setReg_reg_self s x nn, State.setReg_frame x _ s⟩⟩

/-- Settles O12: as O11, with the wrapped sum (`addWrap_toNat`); `VF` is a register of the frame. -/
theorem addImmediateWrapsWithoutFlag : Obligations.AddImmediateWrapsWithoutFlag := by
  refine fun x nn => ⟨selects_of_encodeNat rfl rfl, fun s => ⟨_, rfl, ?_, State.setReg_frame x _ s⟩⟩
  rw [State.setReg_reg_self, addWrap_toNat]

/-- Settles O13: as O11, with `Vy` for the immediate. -/
theorem moveCopiesVy : Obligations.MoveCopiesVy := fun x y =>
  ⟨selects_of_fieldsXY rfl rfl,
    fun s => ⟨_, rfl, State.setReg_reg_self s x (s.reg y), State.setReg_frame x _ s⟩⟩

/-! ### Logic -/

/-- Settles O14: one register is written, and the library says what each operation does to bit `k`. -/
theorem logicIsBitwiseWithoutFlag : Obligations.LogicIsBitwiseWithoutFlag := by
  refine fun x y => ⟨selects_of_fieldsXY rfl rfl, selects_of_fieldsXY rfl rfl, selects_of_fieldsXY rfl rfl,
    fun s => ⟨⟨_, rfl, fun k _ => ?_, State.setReg_frame x _ s⟩, ⟨_, rfl, fun k _ => ?_, State.setReg_frame x _ s⟩,
      ⟨_, rfl, fun k _ => ?_, State.setReg_frame x _ s⟩⟩⟩
  · rw [State.setReg_reg_self, BitVec.getLsbD_or]
  · rw [State.setReg_reg_self, BitVec.getLsbD_and]
  · rw [State.setReg_reg_self, BitVec.getLsbD_xor]

/-! ### Arithmetic and shifts with a flag -/

/-- Settles O15: the wrapped sum in `Vx`, then the carry in `VF`. -/
theorem addSetsCarry : Obligations.AddSetsCarry := by
  refine fun x y => ⟨selects_of_fieldsXY rfl rfl,
    fun s => ⟨_, rfl, fun hx => ?_, ?_, writeThenFlag_frame x _ _ s⟩⟩
  · rw [writeThenFlag_reg_result _ _ s hx, addWrap_toNat]
  · rw [writeThenFlag_reg_flag, carry_toNat]

/-- A subtraction from the minuend `a`: the wrapped difference in `Vx`, then the not-borrow in `VF`. -/
theorem writeThenFlag_subWrap (x : Reg) (a b : Byte) (s : State) :
    (x ≠ flagReg → ((writeThenFlag x (subWrap a b) (notBorrow a b) s).reg x).toNat =
      if b.toNat ≤ a.toNat then a.toNat - b.toNat else a.toNat + 256 - b.toNat) ∧
    ((writeThenFlag x (subWrap a b) (notBorrow a b) s).reg flagReg).toNat = if b.toNat ≤ a.toNat then 1 else 0 := by
  refine ⟨fun hx => ?_, ?_⟩
  · rw [writeThenFlag_reg_result _ _ s hx, subWrap_toNat_borrow]
  · rw [writeThenFlag_reg_flag, notBorrow_toNat]

/-- Settles O16: the minuend is `Vx`. -/
theorem subSetsNotBorrow : Obligations.SubSetsNotBorrow := by
  refine fun x y => ⟨selects_of_fieldsXY rfl rfl, fun s => ?_⟩
  obtain ⟨hresult, hflag⟩ := writeThenFlag_subWrap x (s.reg x) (s.reg y) s
  exact ⟨_, rfl, hresult, hflag, writeThenFlag_frame x _ _ s⟩

/-- Settles O17: the minuend is `Vy`. -/
theorem reverseSubSetsNotBorrow : Obligations.ReverseSubSetsNotBorrow := by
  refine fun x y => ⟨selects_of_fieldsXY rfl rfl, fun s => ?_⟩
  obtain ⟨hresult, hflag⟩ := writeThenFlag_subWrap x (s.reg y) (s.reg x) s
  exact ⟨_, rfl, hresult, hflag, writeThenFlag_frame x _ _ s⟩

/-- Settles O18: `Vx` halved or doubled, then the bit shifted out in `VF`; `y` occurs in neither meaning. -/
theorem shiftsIgnoreVyAndSetVf : Obligations.ShiftsIgnoreVyAndSetVf := by
  refine fun x y => ⟨selects_of_fieldsXY rfl rfl, selects_of_fieldsXY rfl rfl,
    fun s => ⟨⟨_, rfl, fun hx => ?_, ?_, writeThenFlag_frame x _ _ s⟩,
      ⟨_, rfl, fun hx => ?_, ?_, writeThenFlag_frame x _ _ s⟩⟩⟩
  · rw [writeThenFlag_reg_result _ _ s hx, shiftRight1_toNat]
  · rw [writeThenFlag_reg_flag, lowBit_eq_flagByte, flagByte_toNat]
  · rw [writeThenFlag_reg_result _ _ s hx, shiftLeft1_toNat, Nat.mul_comm]
  · rw [writeThenFlag_reg_flag, highBit_eq_flagByte, flagByte_toNat]

/-! ### Random -/

/-- Bit by bit, `Cxnn` leaves in `Vx` the presented byte ANDed with `nn`. -/
theorem setReg_rnd_and_getLsbD (x : Reg) (nn : Byte) (s : State) (k : Nat) :
    ((s.setReg x (s.rnd &&& nn)).reg x).getLsbD k = (s.rnd.getLsbD k && nn.getLsbD k) := by
  rw [State.setReg_reg_self, BitVec.getLsbD_and]

/-- Settles O19: the meaning reads the presented byte, and a tick presents its own byte `b` before it runs the meaning
(`State.present`). -/
theorem randomIsMaskedByImmediate : Obligations.RandomIsMaskedByImmediate := by
  intro x nn
  have hsel : Selects (0xC000 + x.val * 256 + nn.toNat) (.rnd x nn) := selects_of_encodeNat rfl rfl
  refine ⟨hsel, fun s => ⟨_, rfl, fun k _ => setReg_rnd_and_getLsbD x nn s k, State.setReg_frame x _ s⟩,
    fun b s hp hw => ?_⟩
  have htick := tick_next b hp ((congrArg decode hw).trans hsel) rfl
  exact ⟨_, htick, fun k _ => setReg_rnd_and_getLsbD x nn ((State.present b s).setPc (s.pc + 2)) k⟩

end Sys2Proof.Machine
end

section
/-! SUPPORT. Index register and memory (spec/43_index_memory.md): three instructions write `I` alone (`State.setI`); the
three data accesses answer by one bounds check (`accessFits`), and write consecutive bytes from `I` (`State.store`) or
registers (`State.loadRegs`). -/

namespace Sys2Proof.Machine

/-! ### Writing `I` -/

/-- Writing `I` keeps `PC` and every other part. -/
theorem State.setI_frame (a : Word) (s : State) : (s.setI a).pc = s.pc ∧ KeepsAllBut [.index] s (s.setI a) :=
  ⟨rfl, keeps_setI a s⟩

/-- Settles O20: `I` is written with the 12-bit address (`addrOf_toNat`). -/
theorem loadIndexSetsI : Obligations.LoadIndexSetsI := fun nnn =>
  ⟨selects_of_encodeNat rfl rfl, fun s => ⟨_, rfl, addrOf_toNat nnn, State.setI_frame _ s⟩⟩

/-- Settles O21: `I` is written with the 16-bit sum (`indexSum_toNat`); `VF` is in the frame. -/
theorem addIndexWrapsAtSixteenBits : Obligations.AddIndexWrapsAtSixteenBits := fun x =>
  ⟨selects_of_encodeNat rfl rfl, fun s => ⟨_, rfl, indexSum_toNat s.i (s.reg x), State.setI_frame _ s⟩⟩

/-- Settles O22: five times a byte fits `I`, so nothing is masked (`glyphAddress_toNat`). -/
theorem glyphAddressIsFiveTimesVx : Obligations.GlyphAddressIsFiveTimesVx := fun x =>
  ⟨selects_of_encodeNat rfl rfl, fun s => ⟨_, rfl, glyphAddress_toNat (s.reg x), State.setI_frame _ s⟩⟩

/-! ### Storing from `I` -/

/-- Storing `m + 1` bytes from `I` keeps the addresses outside them, `PC` and every part besides memory. -/
theorem State.store_frame {s : State} (hs : s.mem.wf = true) {m : Nat} {bytes : List Byte}
    (hlen : bytes.length = m + 1) (hfits : s.i.toNat + m ≤ 4095) :
    (∀ a, a < s.i.toNat ∨ s.i.toNat + m < a → (s.store s.i.toNat bytes).byte a = s.byte a) ∧
      (s.store s.i.toNat bytes).pc = s.pc ∧ KeepsAllBut [.memory] s (s.store s.i.toNat bytes) :=
  ⟨fun _ ha => State.store_byte_outside hs (by omega) (by omega), rfl, keeps_store _ _ s⟩

/-! ### Decimal digits -/

theorem exec_ldB_of_fits {s : State} (x : Reg) (h : s.i.toNat + 2 ≤ 4095) :
    exec (.ldB x) s = .next (s.store s.i.toNat (bcdDigits (s.reg x))) :=
  if_pos ((accessFits_iff _ _).2 h)

theorem exec_ldB_fault {s : State} (x : Reg) (h : 4095 < s.i.toNat + 2) :
    exec (.ldB x) s = .fault (.memoryAccessOutOfBounds (s.pc - 2) (BitVec.ofNat 16 (0xF033 + x.val * 256))) :=
  if_neg (mt (accessFits_iff _ _).1 (by omega))

/-- The stored digits, read back as numbers. -/
theorem State.store_bcdDigits_toNat {s : State} (hs : s.mem.wf = true) {a : Nat} (ha : a + 2 ≤ 4095) (b : Byte) :
    ((s.store a (bcdDigits b)).byte a).toNat = b.toNat / 100 ∧
      ((s.store a (bcdDigits b)).byte (a + 1)).toNat = b.toNat / 10 % 10 ∧
      ((s.store a (bcdDigits b)).byte (a + 2)).toNat = b.toNat % 10 := by
  have hlen : a + (bcdDigits b).length ≤ 4096 := by rw [bcdDigits_length]; omega
  have hread {k d : Nat} (hget : (bcdDigits b)[k]? = some (BitVec.ofNat 8 d)) (hd : d < 2 ^ 8) :
      ((s.store a (bcdDigits b)).byte (a + k)).toNat = d := by
    rw [State.store_byte_inside hs hlen hget, BitVec.toNat_ofNat, Nat.mod_eq_of_lt hd]
  exact ⟨hread (k := 0) rfl (by omega), hread rfl (by omega), hread rfl (by omega)⟩

/-- Settles O23: the three digits are stored from `I` exactly when `I + 2` is an address. -/
theorem bcdWritesThreeDigits : Obligations.BcdWritesThreeDigits := by
  refine fun x => ⟨selects_of_encodeNat rfl rfl, fun s hs => ⟨fun hi => ?_, fun hi => exec_ldB_fault x (by omega)⟩⟩
  have hfits : s.i.toNat + 2 ≤ 4095 := by omega
  obtain ⟨hhundreds, htens, hunits⟩ := State.store_bcdDigits_toNat hs hfits (s.reg x)
  exact ⟨_, exec_ldB_of_fits x hfits, hhundreds, htens, hunits, State.store_frame hs (bcdDigits_length _) hfits⟩

/-! ### Storing registers -/

theorem exec_storeRegs_of_fits {s : State} {x : Reg} (h : s.i.toNat + x.val ≤ 4095) :
    exec (.storeRegs x) s = .next (s.store s.i.toNat (s.regsUpTo x)) :=
  if_pos ((accessFits_iff _ _).2 h)

theorem exec_storeRegs_fault {s : State} {x : Reg} (h : 4095 < s.i.toNat + x.val) :
    exec (.storeRegs x) s = .fault (.memoryAccessOutOfBounds (s.pc - 2) (BitVec.ofNat 16 (0xF055 + x.val * 256))) :=
  if_neg (mt (accessFits_iff _ _).1 (by omega))

/-- Byte `k` of the stored registers is `V[k]`. -/
theorem State.store_regsUpTo_byte {s : State} (hs : s.mem.wf = true) {a : Nat} {x k : Reg} (ha : a + x.val ≤ 4095)
    (hk : k.val ≤ x.val) : (s.store a (s.regsUpTo x)).byte (a + k.val) = s.reg k :=
  State.store_byte_inside hs (by rw [State.regsUpTo_length]; omega)
    (List.getElem?_eq_some_iff.2 ⟨_, State.regsUpTo_getElem s x k hk⟩)

/-- Settles O24: the `x + 1` registers are stored from `I` exactly when `I + x` is an address. -/
theorem storeWritesV0ToVx : Obligations.StoreWritesV0ToVx := fun x =>
  ⟨selects_of_encodeNat rfl rfl, fun s hs =>
    ⟨fun hfits => ⟨_, exec_storeRegs_of_fits hfits, fun _ hk => State.store_regsUpTo_byte hs hfits hk,
      State.store_frame hs (State.regsUpTo_length s x) hfits⟩, exec_storeRegs_fault⟩⟩

/-! ### Loading registers -/

theorem exec_loadRegs_of_fits {s : State} {x : Reg} (h : s.i.toNat + x.val ≤ 4095) :
    exec (.loadRegs x) s = .next (s.loadRegs x) :=
  if_pos ((accessFits_iff _ _).2 h)

theorem exec_loadRegs_fault {s : State} {x : Reg} (h : 4095 < s.i.toNat + x.val) :
    exec (.loadRegs x) s = .fault (.memoryAccessOutOfBounds (s.pc - 2) (BitVec.ofNat 16 (0xF065 + x.val * 256))) :=
  if_neg (mt (accessFits_iff _ _).1 (by omega))

/-- Settles O25: a register up to `Vx` is loaded and one above is kept (`State.loadRegs_reg`), exactly when `I + x` is
an address. -/
theorem loadReadsV0ToVx : Obligations.LoadReadsV0ToVx := by
  refine fun x => ⟨selects_of_encodeNat rfl rfl, fun s => ⟨fun hfits => ?_, exec_loadRegs_fault⟩⟩
  refine ⟨_, exec_loadRegs_of_fits hfits, fun k hk => ?_, fun k hk => ?_, rfl, keeps_loadRegs x s⟩
  · rw [State.loadRegs_reg, if_pos hk]
  · rw [State.loadRegs_reg, if_neg (by omega)]

/-- Settles O26 from O24 and O25: the load reads, at the same `I`, the bytes that the store wrote. -/
theorem loadUndoesStore : Obligations.LoadUndoesStore := by
  intro x s hs hfits
  obtain ⟨t, hstore, hstored, -⟩ := ((storeWritesV0ToVx x).2 s hs).1 hfits
  refine ⟨t, hstore, fun u hui hkept => ?_⟩
  obtain ⟨w, hload, hloaded, -⟩ := ((loadReadsV0ToVx x).2 u).1 (hui ▸ hfits)
  refine ⟨w, hload, fun k hk => ?_⟩
  calc w.reg k = u.byte (s.i.toNat + k.val) := hui ▸ hloaded k hk
    _ = t.byte (s.i.toNat + k.val) := hkept k hk
    _ = s.reg k := hstored k hk

end Sys2Proof.Machine
end

section
/-! SUPPORT. Display (spec/44_display.md): clearing, and drawing as one inversion of every covered pixel
(`blit_eq_invertAll`, `invertAll_spec`). -/

namespace Sys2Proof.Machine

/-! ### Clear screen -/

/-- Settles O27: the framebuffer alone is written, with a blank one. -/
theorem clearScreenClearsEveryPixel : Obligations.ClearScreenClearsEveryPixel :=
  ⟨selects_of_encodeNat rfl rfl, fun s => ⟨_, rfl, setFb_blank_pixel s, rfl, keeps_setFb blankFb s⟩⟩

/-! ### The pixels a sprite covers -/

/-- The places the engine inverts are the pixels that the sprite covers. -/
theorem mem_spritePlaces_iff_spriteCovers {s : State} {x y : Reg} {n : Nat} {r : Fin 32} {c : Fin 64} :
    (r, c) ∈ spritePlaces s.mem s.i.toNat (s.reg x) (s.reg y) n ↔ SpriteCovers s x y n r c := by
  simp [mem_spritePlaces, SpriteCovers, spriteBit, pixelRow, pixelCol, State.byte, Fin.ext_iff]

/-- The covered pixels depend on the coordinates, on `I` and on memory alone. -/
theorem spriteCovers_congr {s t : State} {x y : Reg} (hx : t.reg x = s.reg x) (hy : t.reg y = s.reg y)
    (hi : t.i = s.i) (hbyte : ∀ a, t.byte a = s.byte a) (n : Nat) (r : Fin 32) (c : Fin 64) :
    SpriteCovers t x y n r c ↔ SpriteCovers s x y n r c := by
  simp only [SpriteCovers, hx, hy, hi, hbyte]

/-! ### The state a draw leaves -/

/-- What `Dxyn` makes of the framebuffer, and whether it collides. -/
def State.blitted (s : State) (x y : Reg) (n : Nat) : Blit :=
  blit s.mem s.i.toNat (s.reg x) (s.reg y) n (s.fb, false)

/-- The state a draw in bounds leaves. -/
def State.drawn (s : State) (x y : Reg) (n : Nat) : State :=
  (s.setFb (s.blitted x y n).1).setReg flagReg (flagByte (s.blitted x y n).2)

theorem exec_drw_of_fits {s : State} {x y : Reg} {n : Nat} (h : n = 0 ∨ s.i.toNat + n - 1 ≤ 4095) :
    exec (.drw x y n) s = .next (s.drawn x y n) :=
  if_pos ((spriteFits_iff s.i n).2 h)

theorem exec_drw_fault {s : State} {x y : Reg} {n : Nat} (h : 0 < n ∧ 4095 < s.i.toNat + n - 1) :
    exec (.drw x y n) s = .fault (.memoryAccessOutOfBounds (s.pc - 2) (encode (.drw x y n))) :=
  if_neg (mt (spriteFits_iff s.i n).1 (by omega))

@[simp] theorem State.drawn_reg_flagReg (s : State) (x y : Reg) (n : Nat) :
    (s.drawn x y n).reg flagReg = flagByte (s.blitted x y n).2 :=
  State.setReg_reg_self _ _ _

/-- A draw keeps `PC`, the registers besides `VF`, and the parts besides the registers and the framebuffer. -/
theorem State.drawn_frame (s : State) (x y : Reg) (n : Nat) :
    (s.drawn x y n).pc = s.pc ∧ KeepsRegsBut [flagReg] s (s.drawn x y n) ∧
      KeepsAllBut [.regs, .display] s (s.drawn x y n) :=
  ⟨rfl, keepsRegs_setReg flagReg _ (s.setFb _),
    ((keeps_setFb _ s).mono (by simp)).trans ((keeps_setReg flagReg _ _).mono (by simp))⟩

section
variable {n : Nat} (hn : n ≤ 15) (s : State) (x y : Reg)
include hn

/-- A draw inverts the pixel at each of the sprite's places once. -/
theorem State.drawn_pixel (r : Fin 32) (c : Fin 64) :
    (s.drawn x y n).pixel r c =
      if (r, c) ∈ spritePlaces s.mem s.i.toNat (s.reg x) (s.reg y) n then !(s.pixel r c) else s.pixel r c := by
  have hinvert := (invertAll_spec (spritePlaces_nodup s.mem s.i.toNat (s.reg x) (s.reg y) hn) (s.fb, false)).1 r c
  rwa [← blit_eq_invertAll] at hinvert

theorem State.drawn_pixel_of_covers {r : Fin 32} {c : Fin 64} (h : SpriteCovers s x y n r c) :
    (s.drawn x y n).pixel r c = !(s.pixel r c) := by
  rw [State.drawn_pixel hn, if_pos (mem_spritePlaces_iff_spriteCovers.2 h)]

theorem State.drawn_pixel_of_not_covers {r : Fin 32} {c : Fin 64} (h : ¬SpriteCovers s x y n r c) :
    (s.drawn x y n).pixel r c = s.pixel r c := by
  rw [State.drawn_pixel hn, if_neg (mt mem_spritePlaces_iff_spriteCovers.1 h)]

/-- The engine collides exactly when some covered pixel was set (spec/44_display.md R163). -/
theorem State.blitted_collision_iff :
    (s.blitted x y n).2 = true ↔ ∃ r c, SpriteCovers s x y n r c ∧ s.pixel r c = true := by
  have hcollide := (invertAll_spec (spritePlaces_nodup s.mem s.i.toNat (s.reg x) (s.reg y) hn) (s.fb, false)).2
  rw [← blit_eq_invertAll] at hcollide
  simpa [mem_spritePlaces_iff_spriteCovers, State.blitted, State.pixel] using hcollide

/-- A pixel goes from 1 to 0 exactly when it is covered and was set. -/
theorem State.drawn_turnsOff_iff (r : Fin 32) (c : Fin 64) :
    s.pixel r c = true ∧ (s.drawn x y n).pixel r c = false ↔ SpriteCovers s x y n r c ∧ s.pixel r c = true := by
  by_cases h : SpriteCovers s x y n r c
  · simp [State.drawn_pixel_of_covers hn s x y h, h]
  · simp [State.drawn_pixel_of_not_covers hn s x y h, h]

end

/-! ### Drawing -/

/-- Settles O28: in bounds the covered pixels are inverted once each and the flag is the engine's collision
(`State.blitted_collision_iff`), which `State.drawn_turnsOff_iff` says of the pixels before and after. -/
theorem drawInvertsCoveredPixels : Obligations.DrawInvertsCoveredPixels := by
  intro x y n hn
  have hword : encodeNat (.drw x y n) = 0xD000 + x.val * 256 + y.val * 16 + n := by
    simp only [encodeNat, fieldsXY]
    omega
  refine ⟨selects_of_encodeNat hword (decide_eq_true hn), fun s => ⟨fun hfits => ?_, fun hout => ?_⟩⟩
  · have hcollide : (s.blitted x y n).2 = true ↔
        ∃ r c, s.pixel r c = true ∧ (s.drawn x y n).pixel r c = false := by
      simp only [State.drawn_turnsOff_iff hn, State.blitted_collision_iff hn]
    refine ⟨_, exec_drw_of_fits hfits, fun r c => ⟨State.drawn_pixel_of_covers hn s x y,
      State.drawn_pixel_of_not_covers hn s x y⟩, fun hoff => ?_, fun hoff => ?_, State.drawn_frame s x y n⟩
    · rw [State.drawn_reg_flagReg, hcollide.2 hoff]
      rfl
    · rw [State.drawn_reg_flagReg, Bool.eq_false_iff.2 (mt hcollide.1 hoff)]
      rfl
  · rw [exec_drw_fault hout, encode, hword]

/-- Settles O29 from O28, applied to both draws: the first keeps the coordinates, `I` and memory, so the second covers
the same pixels (`spriteCovers_congr`) and inverts each of them back. -/
theorem drawTwiceRestores : Obligations.DrawTwiceRestores := by
  intro x y n s hx hy hn hfits
  have hdraw := (drawInvertsCoveredPixels x y n hn).2
  obtain ⟨t, ht, htpix, -, -, -, hregs, hparts⟩ := (hdraw s).1 hfits
  have hi : t.i = s.i := hparts .index (by decide)
  have hcovers := spriteCovers_congr (hregs x (by simpa using hx)) (hregs y (by simpa using hy)) hi
    (hparts .memory (by decide)) n
  obtain ⟨u, hu, hupix, hone, hzero, -⟩ := (hdraw t).1 (hi ▸ hfits)
  have hrestored (r : Fin 32) (c : Fin 64) : u.pixel r c = s.pixel r c := by
    by_cases h : SpriteCovers s x y n r c
    · rw [(hupix r c).1 ((hcovers r c).2 h), (htpix r c).1 h, Bool.not_not]
    · rw [(hupix r c).2 (mt (hcovers r c).1 h), (htpix r c).2 h]
  have hoff (r : Fin 32) (c : Fin 64) :
      t.pixel r c = true ∧ u.pixel r c = false ↔ SpriteCovers s x y n r c ∧ s.pixel r c = false := by
    rw [hrestored]
    by_cases h : SpriteCovers s x y n r c
    · simp [(htpix r c).1 h, h]
    · simp [(htpix r c).2 h, h]
  have hflag : u.reg flagReg = 1 ↔ ∃ r c, t.pixel r c = true ∧ u.pixel r c = false :=
    ⟨fun h => by_contra fun hno => absurd (h.symm.trans (hzero hno)) (by decide), hone⟩
  exact ⟨t, u, ht, hu, hrestored, by simpa only [hoff] using hflag⟩

end Sys2Proof.Machine
end

section
/-! SUPPORT. Keypad and timer instructions (spec/45_keypad_timers.md): the key skips and the key wait answer by one
lookup each (`keyIndex`, `keyWaitPick`); the timer instructions each write one part. -/

namespace Sys2Proof.Machine

/-! ### The key a wait picks -/

/-- Under either value of `KEYWAIT_PICK` the picked key is one of the pressed keys. -/
theorem mem_pressedKeys_of_keyWaitPick {pick : Config.KeywaitPick} {draw : Nat} {keys : Vector Bool 16} {k : Fin 16}
    (h : keyWaitPick pick draw keys = some k) : k ∈ pressedKeys keys := by
  cases pick with
  | lowest => exact List.mem_of_mem_head? h
  | any => exact List.mem_of_getElem? h

/-- Under `any` the draw that is a pressed key's place in the list picks that key. -/
theorem exists_draw_of_mem_pressedKeys {keys : Vector Bool 16} {k : Fin 16} (h : k ∈ pressedKeys keys) :
    ∃ draw, keyWaitPick .any draw keys = some k := by
  obtain ⟨place, hlt, hplace⟩ := List.getElem_of_mem h
  refine ⟨place, ?_⟩
  rw [keyWaitPick, Nat.mod_eq_of_lt hlt, List.getElem?_eq_getElem hlt, hplace]

/-- Settles O32: nothing is picked exactly from a latch with no key pressed (`keyWaitPick_eq_none`), and what is picked
is a member of the list of pressed keys, each of which has a draw. -/
theorem keyPickIsAPressedKey : Obligations.KeyPickIsAPressedKey := by
  refine fun keys => ⟨fun pick draw => ⟨?_, fun k hk => ?_⟩, fun k hk => ?_⟩
  · rw [keyWaitPick_eq_none, keys_eq_replicate_iff]
  · exact (mem_pressedKeys keys k).1 (mem_pressedKeys_of_keyWaitPick hk)
  · exact exists_draw_of_mem_pressedKeys ((mem_pressedKeys keys k).2 hk)

/-! ### Key skips -/

theorem exec_skp_of_key {s : State} {x : Reg} {k : Fin 16} (h : (s.reg x).toNat = k.val) :
    exec (.skp x) s = .next (skipIf s.keys[k] s) := by
  simp only [exec, execSkp, keyIndex_eq_some.2 h]

theorem exec_sknp_of_key {s : State} {x : Reg} {k : Fin 16} (h : (s.reg x).toNat = k.val) :
    exec (.sknp x) s = .next (skipIf (!s.keys[k]) s) := by
  simp only [exec, execSknp, keyIndex_eq_some.2 h]

theorem exec_skp_fault {s : State} {x : Reg} (h : 15 < (s.reg x).toNat) :
    exec (.skp x) s = .fault (.keyIndexOutOfRange (s.pc - 2) (BitVec.ofNat 16 (0xE09E + x.val * 256))) := by
  simp only [exec, execSkp, keyIndex_eq_none.2 h]
  rfl

theorem exec_sknp_fault {s : State} {x : Reg} (h : 15 < (s.reg x).toNat) :
    exec (.sknp x) s = .fault (.keyIndexOutOfRange (s.pc - 2) (BitVec.ofNat 16 (0xE0A1 + x.val * 256))) := by
  simp only [exec, execSknp, keyIndex_eq_none.2 h]
  rfl

/-- Settles O30: `Vx` names a key exactly up to 15 (`keyIndex_eq_some`, `keyIndex_eq_none`), and a skip on that key's
latch keeps every part. -/
theorem keySkipsFollowTheLatch : Obligations.KeySkipsFollowTheLatch := by
  refine fun x => ⟨selects_of_encodeNat rfl rfl, selects_of_encodeNat rfl rfl, fun s =>
    ⟨fun k hk => ⟨⟨_, exec_skp_of_key hk, ?_, keeps_skipIf _ s⟩, ⟨_, exec_sknp_of_key hk, ?_, keeps_skipIf _ s⟩⟩,
      fun hout => ⟨exec_skp_fault hout, exec_sknp_fault hout⟩⟩⟩
  · rw [skipIf_eq, State.setPc_pc]
  · simp only [skipIf_eq, State.setPc_pc, Bool.not_eq_true']

/-! ### Key wait -/

/-- With `KEYWAIT_PICK = lowest` (log 4), `Fx0A` loads the index of the lowest pressed key. -/
theorem exec_ldVxK_of_lowest {s : State} {k : Fin 16} (x : Reg) (hk : s.keys[k] = true)
    (hlow : ∀ j : Fin 16, j < k → s.keys[j] = false) :
    exec (.ldVxK x) s = .next (s.setReg x (BitVec.ofNat 8 k.val)) := by
  have hpick : keyWaitPick params.keywaitPick (Config.keyDraw s.draws) s.keys = some k := pressedKeys_head hk hlow
  simp only [exec, execLdVxK, hpick]

/-- Settles O31: waiting writes `PC` alone (`execLdVxK_waiting`), and a pressed key's index fits the byte loaded. -/
theorem keyWaitLoadsLowestKey : Obligations.KeyWaitLoadsLowestKey := by
  refine fun x => ⟨selects_of_encodeNat rfl rfl, fun s => ⟨fun hnone => ?_, fun k hk hlow => ?_⟩⟩
  · exact ⟨_, execLdVxK_waiting x hnone, rfl, keeps_setPc _ s⟩
  · refine ⟨_, exec_ldVxK_of_lowest x hk hlow, ?_, State.setReg_frame x _ s⟩
    rw [State.setReg_reg_self, BitVec.toNat_ofNat]
    omega

/-! ### Timers -/

/-- Settles O33: one register is written. -/
theorem loadDelayTimerIntoVx : Obligations.LoadDelayTimerIntoVx := fun x =>
  ⟨selects_of_encodeNat rfl rfl, fun s => ⟨_, rfl, State.setReg_reg_self s x s.dt, State.setReg_frame x _ s⟩⟩

/-- Settles O34: the delay timer alone is written. -/
theorem setDelayTimerFromVx : Obligations.SetDelayTimerFromVx := fun _ =>
  ⟨selects_of_encodeNat rfl rfl, fun s => ⟨_, rfl, rfl, rfl, keeps_setDt _ s⟩⟩

theorem State.soundActive_iff (s : State) : s.soundActive = true ↔ 0 < s.st.toNat :=
  decide_eq_true_iff

/-- Settles O35: the sound timer alone is written, and `sound_active` is read off it (`State.soundActive_iff`). -/
theorem setSoundTimerFromVx : Obligations.SetSoundTimerFromVx := fun _ =>
  ⟨selects_of_encodeNat rfl rfl, fun s => ⟨_, rfl, rfl, State.soundActive_iff _, rfl, keeps_setSt _ s⟩⟩

end Sys2Proof.Machine
end

section
/-! SUPPORT. Host operations and faults (spec/60_exceptions.md): the timer channels, the keypad latch, the framebuffer
read, the order of the schedule, and which answers of an instruction and of a tick are faults. -/

namespace Sys2Proof.Machine

/-! ### Timer channels -/

/-- A timer tick writes the two timers, each from its own value. -/
theorem perform_timerTick (s : State) : perform .timerTick s =
    .next ((s.setDt (countDown s.dt)).setSt (countDown s.st), .soundStop (s.st == 1)) := rfl

/-- Setting the two timers, to any values, keeps every other part. -/
theorem keeps_setDt_setSt (a b : Byte) (s : State) :
    KeepsAllBut [.delayTimer, .soundTimer] s ((s.setDt a).setSt b) :=
  ((keeps_setDt a s).mono (by simp)).trans ((keeps_setSt b _).mono (by simp))

theorem countDown_iterate_toNat (k : Nat) (b : Byte) : (countDown^[k] b).toNat = b.toNat - k := by
  induction k with
  | zero => rfl
  | succ k ih => rw [Function.iterate_succ_apply', countDown_toNat, ih, Nat.sub_sub]

/-- Settles O39: one decrement is a truncated subtraction of 1 (`countDown_toNat`), and `k` of them are one of `k`. -/
theorem timerTicksCountDownToZero : Obligations.TimerTicksCountDownToZero :=
  ⟨fun s => ⟨_, _, perform_timerTick s, countDown_toNat s.dt, countDown_toNat s.st, rfl, keeps_setDt_setSt _ _ s⟩,
    countDown_iterate_toNat⟩

/-- Settles O40: `ST` falls from above 0 to 0 in one decrement exactly from 1. -/
theorem soundStopIsTheFallOfSoundActive : Obligations.SoundStopIsTheFallOfSoundActive := by
  intro s t stop h
  rw [perform_timerTick] at h
  cases h
  have hstop : (s.st == 1) = true ↔ s.st.toNat = 1 := by
    rw [beq_iff_eq, ← BitVec.toNat_inj]
    rfl
  refine ⟨hstop, ?_, State.soundActive_iff _⟩
  rw [hstop, ← Bool.not_eq_true, State.soundActive_iff, State.soundActive_iff, State.setSt_st, countDown_toNat]
  omega

/-! ### Keypad latch -/

/-- Writing the latch, with any keys, keeps every part besides the keypad. -/
theorem keeps_keys (keys : Vector Bool 16) (s : State) : KeepsAllBut [.keypad] s { s with keys := keys } := by
  intro p hp
  cases p with
  | keypad => exact absurd hp (by simp)
  | regs | memory => exact fun _ => rfl
  | display => exact fun _ _ => rfl
  | callStack => exact ⟨rfl, rfl⟩
  | inputs => exact ⟨rfl, rfl, rfl⟩
  | index | delayTimer | soundTimer => rfl

/-- Settles O41: a write of one entry of the vector of latches. -/
theorem setKeyWritesOneLatch : Obligations.SetKeyWritesOneLatch := by
  refine fun k pressed s => ⟨_, rfl, fun j => ?_, rfl, keeps_keys _ s⟩
  simp [Vector.getElem_set, Fin.ext_iff, eq_comm]

/-! ### Framebuffer read -/

/-- Rows of equal width `w`, put one after another, hold entry `c` of row `r` at `r × w + c`. -/
theorem getElem?_flatten_of_width {w c : Nat} (hc : c < w) {rows : List (List Bool)}
    (hrows : ∀ row ∈ rows, row.length = w) (r : Nat) :
    rows.flatten[r * w + c]? = rows[r]?.bind fun row => row[c]? := by
  induction rows generalizing r with
  | nil => simp
  | cons row rows ih =>
    obtain ⟨hrow, hrest⟩ := List.forall_mem_cons.1 hrows
    rw [List.flatten_cons]
    cases r with
    | zero =>
      rw [Nat.zero_mul, Nat.zero_add, List.getElem?_append_left (hrow ▸ hc)]
      rfl
    | succ r =>
      have hpast : row.length ≤ (r + 1) * w + c := by rw [hrow, Nat.succ_mul]; omega
      have hback : (r + 1) * w + c - row.length = r * w + c := by rw [hrow, Nat.succ_mul]; omega
      rw [List.getElem?_append_right hpast, hback, ih hrest, List.getElem?_cons_succ]

theorem State.fbBits_length (s : State) : s.fbBits.length = 2048 := by
  simp [State.fbBits, List.length_flatten, Function.comp_def]

/-- The bits are row-major (spec/10_state.md R22). -/
theorem State.fbBits_getElem? (s : State) (r : Fin 32) (c : Fin 64) :
    s.fbBits[r.val * 64 + c.val]? = some (s.pixel r c) := by
  have hrows : ∀ row ∈ s.fb.toList.map Vector.toList, row.length = 64 := by simp
  rw [State.fbBits, getElem?_flatten_of_width c.isLt hrows]
  simp [State.pixel]

/-- Settles O42: the output is `State.fbBits`. -/
theorem readFramebufferIsRowMajor : Obligations.ReadFramebufferIsRowMajor :=
  fun s => ⟨s.fbBits, rfl, s.fbBits_length, s.fbBits_getElem?⟩

/-! ### The schedule -/

/-- A load completes, accepted or rejected, and keeps the schedule. -/
theorem load_completes (bytes : List Byte) (s : State) :
    ∃ t out, load bytes s = .next (t, out) ∧ t.schedule = s.schedule := by
  by_cases hlen : bytes.length ≤ Config.maxImage
  · exact ⟨_, _, if_pos hlen, rfl⟩
  · exact ⟨_, _, if_neg hlen, rfl⟩

/-- Every host operation but a tick completes, and none of them adds to the schedule or takes from it. -/
theorem perform_completes {op : HostOp} (h : ∀ b : Byte, op ≠ .tick b) (s : State) :
    ∃ t out, perform op s = .next (t, out) ∧ t.schedule = s.schedule := by
  cases op with
  | tick b => exact absurd rfl (h b)
  | load bytes => exact load_completes bytes s
  | powerOn | reset | timerTick | setKey _ _ | readFramebuffer => exact ⟨_, _, rfl, rfl⟩

/-- Settles O45: a step is what its operation answers, without the output (`step_of_schedule_nil`,
`step_of_schedule_cons`). -/
theorem stepPerformsScheduledOperations : Obligations.StepPerformsScheduledOperations := by
  refine ⟨fun s => step_of_schedule_nil, fun s b ops => step_of_schedule_cons, fun s op ops hcons hop => ?_⟩
  obtain ⟨t, out, hperform, hschedule⟩ := perform_completes hop { s with schedule := ops }
  refine ⟨t, out, hperform, ?_, hschedule⟩
  rw [step_of_schedule_cons hcons, hperform]
  rfl

/-! ### When an instruction faults -/

/-- Under its condition of R200 an instruction faults, and the fault records the address two below the `PC` that fetch
left and the instruction's word. -/
theorem exec_of_faultCondition {i : Instr} {s : State} (h : FaultCondition i s) :
    ∃ f, exec i s = .fault f ∧ f.pc0 = s.pc - 2 ∧ f.op = some (encode i) := by
  cases i with
  | ret => exact ⟨_, exec_ret_underflow h, rfl, rfl⟩
  | call nnn => exact ⟨_, exec_call_overflow nnn h, rfl, rfl⟩
  | drw _ _ _ => exact ⟨_, exec_drw_fault h, rfl, rfl⟩
  | ldB x => exact ⟨_, exec_ldB_fault x h, rfl, rfl⟩
  | storeRegs _ => exact ⟨_, exec_storeRegs_fault h, rfl, rfl⟩
  | loadRegs _ => exact ⟨_, exec_loadRegs_fault h, rfl, rfl⟩
  | skp _ => exact ⟨_, exec_skp_fault h, rfl, rfl⟩
  | sknp _ => exact ⟨_, exec_sknp_fault h, rfl, rfl⟩
  | _ => exact absurd h id

/-- `Fx0A` completes whether it finds a key or waits. -/
theorem execLdVxK_completes (x : Reg) (s : State) : ∃ t, execLdVxK x s = .next t := by
  unfold execLdVxK
  split <;> exact ⟨_, rfl⟩

/-- Outside its condition of R200 an instruction completes. -/
theorem exec_of_not_faultCondition {i : Instr} {s : State} (h : ¬FaultCondition i s) : ∃ t, exec i s = .next t := by
  cases i with
  | ret =>
    obtain ⟨t, ht⟩ := pop_isSome (Nat.pos_of_ne_zero h)
    exact ⟨t, exec_ret_of_pop ht⟩
  | call nnn =>
    obtain ⟨u, hu⟩ := push_isSome (Nat.lt_of_le_of_ne (Nat.le_of_lt_succ s.sp.isLt) h)
    exact ⟨_, exec_call_of_push nnn hu⟩
  | drw _ _ n => exact ⟨_, exec_drw_of_fits (by simp only [FaultCondition] at h; omega)⟩
  | ldB x => exact ⟨_, exec_ldB_of_fits x (Nat.le_of_not_lt h)⟩
  | storeRegs _ => exact ⟨_, exec_storeRegs_of_fits (Nat.le_of_not_lt h)⟩
  | loadRegs _ => exact ⟨_, exec_loadRegs_of_fits (Nat.le_of_not_lt h)⟩
  | skp x => exact ⟨_, exec_skp_of_key (k := ⟨(s.reg x).toNat, Nat.lt_succ_of_le (Nat.le_of_not_lt h)⟩) rfl⟩
  | sknp x => exact ⟨_, exec_sknp_of_key (k := ⟨(s.reg x).toNat, Nat.lt_succ_of_le (Nat.le_of_not_lt h)⟩) rfl⟩
  | ldVxK x => exact execLdVxK_completes x s
  | _ => exact ⟨_, rfl⟩

/-- Settles O47: under its condition an instruction faults, outside it the instruction completes. -/
theorem instructionsFaultExactlyAsRuled : Obligations.InstructionsFaultExactlyAsRuled := by
  intro i s
  by_cases hc : FaultCondition i s
  · obtain ⟨f, hf, -⟩ := exec_of_faultCondition hc
    simp [hf, hc]
  · obtain ⟨t, ht⟩ := exec_of_not_faultCondition hc
    simp [ht, hc]

/-! ### What the fault of a tick records -/

/-- A fault raised by an instruction records the address two below the `PC` that fetch left and the instruction's
word. -/
theorem exec_fault {i : Instr} {s : State} {f : Fault} (h : exec i s = .fault f) :
    f.pc0 = s.pc - 2 ∧ f.op = some (encode i) := by
  obtain ⟨g, hg, hrecords⟩ := exec_of_faultCondition (((instructionsFaultExactlyAsRuled i s).1).1 ⟨f, h⟩)
  obtain rfl : f = g := Host.Outcome.fault.inj (h.symm.trans hg)
  exact hrecords

/-- Everything a tick that faults can have done: failed to fetch, or run an instruction that faults. -/
theorem tick_fault_cases {b : Byte} {s : State} {f : Fault} (h : tick b s = .fault f) :
    (4095 ≤ s.pc.toNat ∧ f = .programCounterOutOfBounds s.pc) ∨
      (s.pc.toNat < 4095 ∧ ∃ i, decode (s.wordAt s.pc.toNat) = .ok i ∧
        exec i ((State.present b s).setPc (s.pc + 2)) = .fault f) := by
  by_cases hp : s.pc.toNat < 4095
  · rw [tick_of_fetch b hp] at h
    cases hd : decode (s.wordAt s.pc.toNat) with
    | error e =>
      rw [execute_unknown hd] at h
      cases h
    | ok i => exact Or.inr ⟨hp, i, rfl, by rw [← dropOutput_execute hd, h]; rfl⟩
  · rw [tick_fetch_fault b (Nat.le_of_not_lt hp)] at h
    exact Or.inl ⟨Nat.le_of_not_lt hp, (Host.Outcome.fault.inj h).symm⟩

/-- Settles O48: a fetch fault is `ProgramCounterOutOfBounds` at `PC`; an instruction's fault (`exec_fault`) records a
word, which is the fetched one because the decoded instruction encodes to it (`encodeOfDecode`). -/
theorem faultRecordsAddressAndWord : Obligations.FaultRecordsAddressAndWord := by
  intro b s f h
  obtain ⟨hp, rfl⟩ | ⟨hp, i, hd, hexec⟩ := tick_fault_cases h
  · exact ⟨rfl, (if_neg (Nat.not_lt.2 hp)).symm, iff_of_true rfl hp⟩
  · obtain ⟨hpc0, hop⟩ := exec_fault hexec
    rw [(encodeOfDecode _ i hd).2] at hop
    have hkind : f ≠ .programCounterOutOfBounds s.pc := by
      rintro rfl
      cases hop
    refine ⟨?_, ?_, iff_of_false hkind (Nat.not_le.2 hp)⟩
    · rw [hpc0, State.setPc_pc, BitVec.add_sub_cancel]
    · rw [hop, if_pos hp]

end Sys2Proof.Machine
end

section
/-! SUPPORT. Reset and load (spec/70_reset_and_hazards.md R230 to R233): `PowerOn` and `Reset` answer the reset state
with the inputs kept (`State.toReset`), and an image that fits is one store from 512 up (`State.store`). -/

namespace Sys2Proof.Machine

/-! ### Power on and reset -/

/-- Whatever the machine held, it agrees with the reset state on `PC` and every item of spec/10_state.md R10. -/
theorem State.toReset_sameMachine (s : State) : SameMachine State.reset s.toReset := by
  refine ⟨rfl, fun p hp => ?_⟩
  cases p with
  | inputs => exact absurd (List.mem_singleton_self _) hp
  | callStack => exact ⟨rfl, rfl⟩
  | regs | memory => exact fun _ => rfl
  | display => exact fun _ _ => rfl
  | index | delayTimer | soundTimer | keypad => rfl

theorem State.toReset_inputs (s : State) : Part.same s s.toReset .inputs := ⟨rfl, rfl, rfl⟩

/-- Settles O37: both operations answer `State.toReset`. -/
theorem resetRestoresEverything : Obligations.ResetRestoresEverything := by
  rintro s op (rfl | rfl) <;> exact ⟨s.toReset, rfl, s.toReset_sameMachine, s.toReset_inputs⟩

/-! ### Load -/

theorem perform_load_of_fits {bytes : List Byte} (h : bytes.length ≤ 3584) (s : State) :
    perform (.load bytes) s = .next (s.store 512 bytes, .ok) :=
  if_pos h

theorem perform_load_too_long {bytes : List Byte} (h : 3584 < bytes.length) (s : State) :
    perform (.load bytes) s = .next (s, .romTooLarge) :=
  if_neg (Nat.not_le.2 h)

/-- Settles O38: an accepted image ends at 512 + 3584 = 4096 or below, so the store puts all of it inside memory. -/
theorem loadCopiesOrRejects : Obligations.LoadCopiesOrRejects := by
  refine fun bytes s hs => ⟨fun hlen => ?_, fun hlen => perform_load_too_long hlen s⟩
  have hfits : 512 + bytes.length ≤ 4096 := by omega
  exact ⟨_, perform_load_of_fits hlen s, fun _ _ => State.store_byte_inside hs hfits,
    fun _ => State.store_byte_outside hs hfits, rfl, keeps_store 512 bytes s⟩

end Sys2Proof.Machine
end
